-- ==== Sys2Proof/Word.lean ====
section
/-!
DEFINITION. The word types of the RIM-keccak CORE (spec/00_scope.md R5, R7; spec/30_encoding.md R60).
Every value is an unsigned bit vector or a natural number; bit 0 is the least significant bit (R7).
-/

namespace Sys2Proof

/-- A byte: one cell of the state byte space, one transaction of port O (R5, R40, R60). -/
abbrev Byte := BitVec 8

/-- A lane of the state: `W = 64` bits (R5, R20). -/
abbrev Lane := BitVec 64

/-- A command word of port C: `CMD_BITS = 32` (R6, R61). -/
abbrev CmdWord := BitVec 32

/-- A status word of port S: `STATUS_BITS = 8` (R6, R66). -/
abbrev StatusWord := BitVec 8

/-- The 1600-bit vector that port P carries each way (R48, R60, R63). -/
abbrev PermVec := BitVec 1600

/-- The 25 lanes `A[0..24]`: exactly 25, by the type (R20). Lane `(x, y)` is entry `x + 5*y` (R8). -/
abbrev Lanes := Vector Lane 25

end Sys2Proof
end

