-- ==== Sys2Proof/Config.lean ====
section
/-!
DEFINITION. What the spec leaves open, as constants with no body: nothing in Lean can evaluate them or prove a
value of them.

The only values this hardware leaves open are the contents of the lanes and of `rate`, `offset`, `delimiter` after
reset (spec/10_state.md R34, spec/92_eei_decisions.md D14, spec/93_implementation_defined.md U1): "A model should give
them no value (an option type or an arbitrary draw); it must not take them as zero." Each reset takes a fresh draw,
numbered by the counter `draws` of State. Log entries 1 and 2. DESIGN CHOICE, unsafe only in that the n-th draw is one
and the same in every run.

The parameters of spec/00_scope.md R6 are fixed by the spec. The widths `CMD_BITS`, `RATE_BITS`, `OFFSET_BITS`,
`DELIM_BITS`, `PHASE_BITS`, `STATUS_BITS` are in the types of Word.lean and Machine/State.lean; `OUTLEN_BITS` stands in
WellFormed.lean and Decode.lean; `RATE_MIN` is `Machine.rateMin` (Machine/Operands.lean) and `CFG_DELIM` is
`Machine.cfgDelim` (Machine/Rom.lean).
-/

namespace Sys2Proof

/-- The lanes after the reset with draw number `draw`: unspecified (R34). -/
opaque Config.resetLanes (draw : Nat) : Lanes

/-- The register `rate` after the reset with draw number `draw`: unspecified (R34). -/
opaque Config.resetRate (draw : Nat) : BitVec 8

/-- The register `offset` after the reset with draw number `draw`: unspecified (R34). -/
opaque Config.resetOffset (draw : Nat) : BitVec 8

/-- The register `delimiter` after the reset with draw number `draw`: unspecified (R34). -/
opaque Config.resetDelimiter (draw : Nat) : Byte

end Sys2Proof
end

