-- ==== Sys2Proof/Syntax.lean ====
section
/-!
DEFINITION. The instruction set as syntax: one constructor of `Instr` per row of spec/opcode_table.json
(spec/30_encoding.md R64), and the transactions that carry instructions to the machine (R60, R61, R63).
-/

namespace Sys2Proof

/-- The variant `v`: the four rows of the configuration ROM, numbered 0, 1, 2, 3 in this order (R31, R64, R68). -/
inductive Variant where
  /-- `v = 0`, the row 224. -/
  | sha3_224
  /-- `v = 1`, the row 256. -/
  | sha3_256
  /-- `v = 2`, the row 384. -/
  | sha3_384
  /-- `v = 3`, the row 512. -/
  | sha3_512
deriving DecidableEq, Repr

/-- The six instructions (R64). `rate` and `outlen` are natural numbers, as the spec's numbers of bytes are (R64, D5);
WellFormed.lean states the ranges their fields can hold. -/
inductive Instr where
  /-- KECCAKF on port P: the whole request is the state vector `S` (R63, R88). -/
  | keccakf (S : PermVec)
  /-- INIT `rate`, `delim` (R62 format I, R100). -/
  | init (rate : Nat) (delim : Byte)
  /-- ABSORB `byte` (R62 format B, R101). -/
  | absorb (byte : Byte)
  /-- FINALIZE `outlen` (R62 format L, R102). -/
  | finalize (outlen : Nat)
  /-- INITV `v` (R62 format V, R120). -/
  | initv (v : Variant)
  /-- FINALV `v` (R62 format V, R121). -/
  | finalv (v : Variant)
deriving DecidableEq, Repr

/-- One complete transfer into the hardware that carries an instruction or an illegal word (R60). -/
inductive Transaction where
  /-- A 32-bit command word on port C (R61). -/
  | c (W : CmdWord)
  /-- A 1600-bit request on port P, the interface of the permutation module (R63). -/
  | p (S : PermVec)
deriving DecidableEq, Repr

end Sys2Proof
end

