-- ==== Sys2Proof/Machine/State.lean ====
section
/-!
DEFINITION. The state of one CORE instance (spec/10_state.md), its reset value (R34), and the reasons a step can stop.
-/

namespace Sys2Proof.Machine

/-- The 2-bit register `phase`: IDLE = 0, ABSORBING = 1, FINALIZED = 2; the value 3 is never held (R25, U3). -/
inductive Phase where
  /-- 0: no context exists (R25). -/
  | idle
  /-- 1: a context exists and accepts ABSORB and one FINALIZE (R25). -/
  | absorbing
  /-- 2: the context has been finalized; only INIT and INITV are accepted (R25). -/
  | finalized
deriving DecidableEq, Repr

/-- The three error conditions (spec/60_exceptions.md R130). -/
inductive ErrorKind where
  /-- R131. -/
  | invalidRate
  /-- R132. -/
  | misuse
  /-- R133. -/
  | illegalCommand
deriving DecidableEq, Repr

/-- One transaction out of the CORE that the host sees (R60). -/
inductive PortEvent where
  /-- One output byte on port O (R47). -/
  | o (b : Byte)
  /-- One status word on port S (R66). -/
  | s (w : StatusWord)
deriving DecidableEq, Repr

/-- One transaction of the internal port P: the request and its response (R60, R63, R89). -/
structure PermCall where
  request : PermVec
  response : PermVec
deriving DecidableEq, Repr

/-- What the outside presents to the machine (R60, R158). Log entries 3, 5, 9. -/
inductive HostInput where
  /-- One transaction: a word on port C, or a request on port P presented to the permutation module alone (R63). -/
  | present (t : Transaction)
  /-- RST asserted between commands (R150). -/
  | rst
  /-- The word `W` on port C, and RST asserted while it is executing, after it has emitted `emitted` of its bytes (R150). -/
  | rstDuring (W : CmdWord) (emitted : Nat)
deriving DecidableEq, Repr

/-- The whole state. The first five fields are the spec's architectural state, 1626 bits (R20 to R25); the last four are
the model's own: the interfaces' traffic (R60) and the number of arbitrary draws made for R34. -/
structure State where
  /-- The lanes `A[0..24]`, which are also the 200 bytes of `SB` (R20, R40). -/
  lanes : Lanes
  /-- `rate[7:0]` (R22). -/
  rate : BitVec 8
  /-- `offset[7:0]` (R23). -/
  offset : BitVec 8
  /-- `delimiter[7:0]` (R24). -/
  delimiter : Byte
  /-- `phase[1:0]` (R25). -/
  phase : Phase
  /-- What the host still presents, the next one first (R49, R154, R158). Log entry 3. -/
  inputs : List HostInput
  /-- What has appeared on ports O and S, in order (R47, R66, R160). Log entry 4. -/
  sent : List PortEvent
  /-- What has passed over port P, in order (R89); its length is the ghost count of R106, R157. Log entry 5. -/
  permLog : List PermCall
  /-- How many draws of the unspecified reset values have been made (R34). Log entry 2. -/
  draws : Nat
deriving DecidableEq, Repr

/-- Why the machine stops. No rule of the spec stops it (R140): both reasons arise only from register contents that no
run reaches (R26), and both are safe (log entry 8). -/
inductive Fault where
  /-- Raised by MemRead, MemWrite and XorByte at an address of 200 or more: `SB` has exactly 200 bytes (R40). Safe. -/
  | noSuchStateByte (address : Nat)
  /-- Raised by FINALIZE and FINALV when `rate` is 0: `rate - 1` is then no byte index and squeezing never progresses
  (spec/90_conflicts.md C6, I12). Safe. -/
  | emptyRateWindow
deriving DecidableEq, Repr

/-- Why the machine refuses. -/
inductive Refusal where
  /-- Raised by the dispatch alone for an instruction with no meaning yet; no instruction is left so. Safe. -/
  | notModelled (mnemonic : String)
deriving DecidableEq, Repr

/-- The machine right after reset (R34, R150): `phase` IDLE; the lanes, `rate`, `offset` and `delimiter` unspecified, draw
number 0 (DESIGN CHOICE, log entries 1 and 2); nothing pending and nothing produced. -/
def State.reset : State where
  lanes := Config.resetLanes 0
  rate := Config.resetRate 0
  offset := Config.resetOffset 0
  delimiter := Config.resetDelimiter 0
  phase := .idle
  inputs := []
  sent := []
  permLog := []
  draws := 1

end Sys2Proof.Machine
end

