-- ==== Sys2Proof/Machine/Flags.lean ====
section
/-!
DEFINITION. There are no flags, condition codes or sticky bits (spec/10_state.md R28). The one condition a command
reports is its status word on port S, whose coding this file holds (spec/30_encoding.md R66, spec/60_exceptions.md R130),
with the coding of the register `phase` (R25).
-/

namespace Sys2Proof.Machine

/-- 0x00 OK: the command did what its rule says (R66). -/
def statusOk : StatusWord := 0x00#8

/-- The status codes of the three errors: INVALID_RATE, MISUSE, ILLEGAL_COMMAND (R66, R130). -/
def errorCode : ErrorKind → StatusWord
  | .invalidRate => 0x01#8
  | .misuse => 0x02#8
  | .illegalCommand => 0x03#8

/-- The 2-bit value of `phase` (R25). -/
def phaseCode : Phase → BitVec 2
  | .idle => 0#2
  | .absorbing => 1#2
  | .finalized => 2#2

end Sys2Proof.Machine
end

