-- ==== Sys2Proof/WellFormed.lean ====
section
/-!
DEFINITION. Which instructions their encodings can hold: the operand ranges of spec/30_encoding.md R64 and R67.
The other operands are in range by their types.
-/

namespace Sys2Proof

/-- The operands are in the range of their fields (R64): `rate` 0..255, `outlen` 0..2^24-1. "An operand out of its
field's range is an assembly error, not an encoding" (R68). A `rate` of 0 or of 200..255 is well formed: it has an
encoding, and INIT refuses it with InvalidRate (R100). -/
def Instr.wellFormed : Instr → Bool
  | .keccakf _ => true
  | .init rate _ => decide (rate < 256)
  | .absorb _ => true
  | .finalize outlen => decide (outlen < 2 ^ 24)
  | .initv _ => true
  | .finalv _ => true

end Sys2Proof
end

