-- ==== Sys2Proof/Decode.lean ====
section
/-!
DEFINITION. Decoding, total on every transaction and rejecting by name, and the encoder (spec/30_encoding.md R61 to
R67). Bits are numbered from the least significant (R7); `W.extractLsb' lo n` is the slice `W[lo+n-1 : lo]`.
-/

namespace Sys2Proof

/-- Why a word on port C is no instruction (R65). -/
inductive Illegal where
  /-- The opcode field is 0x00 or at least 0x06 (R65 case a). -/
  | reservedOpcode (op : BitVec 8)
  /-- The opcode is defined but a must-be-zero bit is set (R65 cases b, c, d). -/
  | mustBeZero (op : BitVec 8)
deriving DecidableEq, Repr

/-- The variant a 2-bit `v` field names (R64). -/
def variantOfBits (v : BitVec 2) : Variant :=
  if v = 0#2 then .sha3_224 else if v = 1#2 then .sha3_256 else if v = 2#2 then .sha3_384 else .sha3_512

/-- The number of a variant (R31, R68). -/
def variantNumber : Variant → Nat
  | .sha3_224 => 0
  | .sha3_256 => 1
  | .sha3_384 => 2
  | .sha3_512 => 3

/-- The decode procedure of port C (R67). -/
def decodeC (W : CmdWord) : Except Illegal Instr :=
  let op := W.extractLsb' 24 8
  if op = 0x01#8 then
    if W.extractLsb' 16 8 = 0#8 then .ok (.init (W.extractLsb' 8 8).toNat (W.extractLsb' 0 8)) else .error (.mustBeZero op)
  else if op = 0x02#8 then
    if W.extractLsb' 8 16 = 0#16 then .ok (.absorb (W.extractLsb' 0 8)) else .error (.mustBeZero op)
  else if op = 0x03#8 then
    .ok (.finalize (W.extractLsb' 0 24).toNat)
  else if op = 0x04#8 then
    if W.extractLsb' 2 22 = 0#22 then .ok (.initv (variantOfBits (W.extractLsb' 0 2))) else .error (.mustBeZero op)
  else if op = 0x05#8 then
    if W.extractLsb' 2 22 = 0#22 then .ok (.finalv (variantOfBits (W.extractLsb' 0 2))) else .error (.mustBeZero op)
  else .error (.reservedOpcode op)

/-- The decoder over both ports: port P carries no opcode, every request is KECCAKF (R63). -/
def decode : Transaction → Except Illegal Instr
  | .c W => decodeC W
  | .p S => .ok (.keccakf S)

/-- The encoder (R67); KECCAKF's encoding is its request (R63). Meant for well-formed instructions. -/
def encode : Instr → Transaction
  | .keccakf S => .p S
  | .init rate delim => .c (BitVec.ofNat 32 (0x01000000 + 256 * rate + delim.toNat))
  | .absorb byte => .c (BitVec.ofNat 32 (0x02000000 + byte.toNat))
  | .finalize outlen => .c (BitVec.ofNat 32 (0x03000000 + outlen))
  | .initv v => .c (BitVec.ofNat 32 (0x04000000 + variantNumber v))
  | .finalv v => .c (BitVec.ofNat 32 (0x05000000 + variantNumber v))

/-- The transaction that carries an instruction written as spec/opcode_table.json numbers its bits. A row of 32 bits is
a word of port C, which is one word and one transaction (R61); the row KECCAKF belongs to port P, where a request has
1600 bits, those above `nbits` being 0 (R63). DESIGN CHOICE, log entry 6. -/
def tableTransaction (nbits w : Nat) : Transaction :=
  if nbits = 32 then .c (BitVec.ofNat 32 w) else .p (BitVec.ofNat 1600 (w % 2 ^ nbits))

/-- The instruction the decoder reads from an instruction whose bits are `w`, numbered as the opcode table numbers them. -/
def decodeTableWord (nbits w : Nat) : Option Instr :=
  (decode (tableTransaction nbits w)).toOption

end Sys2Proof
end

