-- ==== Sys2Proof/Machine/Rom.lean ====
section
/-!
DEFINITION. The constant ROMs RC, ROT and CFG, read-only from the first moment (spec/10_state.md R29 to R31,
spec/20_memory.md R51), and the generating rules the spec gives for the first two.
-/

namespace Sys2Proof.Machine

/-- `RC[ir]`, the round constant of round `ir`, entry for entry as the table of R29 prints it (from general knowledge by
decision D20, log entry 11). Only `ir` in 0..23 is ever asked for (R86, R88). -/
def roundConstant (ir : Nat) : Lane :=
  match ir with
  | 0 => 0x0000000000000001#64
  | 1 => 0x0000000000008082#64
  | 2 => 0x800000000000808A#64
  | 3 => 0x8000000080008000#64
  | 4 => 0x000000000000808B#64
  | 5 => 0x0000000080000001#64
  | 6 => 0x8000000080008081#64
  | 7 => 0x8000000000008009#64
  | 8 => 0x000000000000008A#64
  | 9 => 0x0000000000000088#64
  | 10 => 0x0000000080008009#64
  | 11 => 0x000000008000000A#64
  | 12 => 0x000000008000808B#64
  | 13 => 0x800000000000008B#64
  | 14 => 0x8000000000008089#64
  | 15 => 0x8000000000008003#64
  | 16 => 0x8000000000008002#64
  | 17 => 0x8000000000000080#64
  | 18 => 0x000000000000800A#64
  | 19 => 0x800000008000000A#64
  | 20 => 0x8000000080008081#64
  | 21 => 0x8000000000008080#64
  | 22 => 0x0000000080000001#64
  | 23 => 0x8000000080008008#64
  | _ => 0#64

/-- `ROT[0..24]` in linear index order (R30; from general knowledge by decision D20, log entry 11). -/
def ROT : List Nat :=
  [0, 1, 62, 28, 27, 36, 44, 6, 55, 20, 3, 10, 43, 25, 39, 41, 45, 15, 21, 8, 18, 2, 61, 56, 14]

/-- `ROT[i]`; only `i` in 0..24 is ever asked for (R83). -/
def rotAmount (i : Nat) : Nat := ROT.getD i 0

/-- `PILN[0..23]`, the destination lane of each step of the cycle walk (R30). -/
def PILN : List Nat :=
  [10, 7, 11, 17, 18, 3, 5, 16, 8, 21, 24, 4, 15, 23, 19, 13, 12, 2, 20, 14, 22, 9, 6, 1]

/-- `ROTC[0..23]`, the rotation amount of each step of the cycle walk (R30). -/
def ROTC : List Nat :=
  [1, 3, 6, 10, 15, 21, 28, 36, 45, 55, 2, 14, 27, 41, 56, 8, 25, 43, 62, 18, 39, 61, 20, 44]

/-- The delimiter byte held in all four rows of CFG: `CFG_DELIM` = 0x06 (R6, R31, R124; spec/90_conflicts.md C1 against
the document's printed 0x01; log entry 10). -/
def cfgDelim : Byte := 0x06#8

/-- `CFG[v].rate`, in bytes (R31). -/
def cfgRate : Variant → Nat
  | .sha3_224 => 144
  | .sha3_256 => 136
  | .sha3_384 => 104
  | .sha3_512 => 72

/-- `CFG[v].outlen`, in bytes (R31). -/
def cfgOutlen : Variant → Nat
  | .sha3_224 => 28
  | .sha3_256 => 32
  | .sha3_384 => 48
  | .sha3_512 => 64

/-- One step of the 8-bit register of R29's generating rule: `R <- R << 1; if R[8] then R <- R xor 0x171`. -/
def lfsrStep (R : BitVec 9) : BitVec 9 :=
  let shifted := R <<< 1
  if shifted.getLsbD 8 then shifted ^^^ 0x171#9 else shifted

/-- The register after `t` steps from 0x01 (R29). -/
def lfsrAfter : Nat → BitVec 9
  | 0 => 0x01#9
  | t + 1 => lfsrStep (lfsrAfter t)

/-- R29's generating rule for `RC[ir]`: bit `2^j - 1` is `rc(j + 7*ir)` for `j` in 0..6, every other bit is 0. -/
def generatedRoundConstant (ir : Nat) : Lane :=
  (List.range 7).foldl
    (fun acc j => if (lfsrAfter ((j + 7 * ir) % 255)).getLsbD 0 then acc ||| (1#64 <<< (2 ^ j - 1)) else acc) 0#64

/-- R30's generating walk: from step `t` at position `(x, y)`, the next `n` pairs (lane index, rotation amount). -/
def generatedRotations : Nat → Nat → Nat → Nat → List (Nat × Nat)
  | 0, _, _, _ => []
  | n + 1, t, x, y => (x + 5 * y, (t + 1) * (t + 2) / 2 % 64) :: generatedRotations n (t + 1) y ((2 * x + 3 * y) % 5)

end Sys2Proof.Machine
end

