-- ==== Sys2Proof/Machine/Permutation.lean ====
section
/-!
DEFINITION. The permutation Keccak-f[1600] (module keccak_f1600_permutation): the arithmetic of spec/40_permutation.md
R80, R81, the steps R82 to R86, the round R87, the permutation R88, and the 1600-bit layout of port P (spec/20_memory.md
R48). Every step is a pure function of its input lanes (R32, D25).
-/

namespace Sys2Proof.Machine

/-- The lane `A[x, y] = A[x + 5*y]`, "indices mod 5" (R8, R81). -/
def laneXY (A : Lanes) (x y : Nat) : Lane := A[x % 5 + 5 * (y % 5)]'(by omega)

/-- The 25 lanes whose lane `(x, y)` is `f x y`; a line of this text is a row `y` (R8). -/
def lanesOf (f : Nat → Nat → Lane) : Lanes :=
  #v[f 0 0, f 1 0, f 2 0, f 3 0, f 4 0,
     f 0 1, f 1 1, f 2 1, f 3 1, f 4 1,
     f 0 2, f 1 2, f 2 2, f 3 2, f 4 2,
     f 0 3, f 1 3, f 2 3, f 3 3, f 4 3,
     f 0 4, f 1 4, f 2 4, f 3 4, f 4 4]

/-- The all-zero state. -/
def zeroLanes : Lanes := lanesOf fun _ _ => 0#64

/-- `rotl64(v, n)` for `n` in 0..63; amount 0 is its own case and leaves the lane unchanged (R80, I3). -/
def rotl64 (v : Lane) (n : Nat) : Lane :=
  if n = 0 then v else (v <<< n) ^^^ (v >>> (64 - n))

/-- Five lanes `C[0..4]` indexed by a column. -/
def columnsOf (f : Nat → Lane) : Vector Lane 5 := #v[f 0, f 1, f 2, f 3, f 4]

/-- `C[x]`, "indices mod 5" (R81). -/
def columnAt (C : Vector Lane 5) (x : Nat) : Lane := C[x % 5]'(by omega)

/-- The column parities `C[x]` of theta (R82). -/
def columnParities (A : Lanes) : Vector Lane 5 :=
  columnsOf fun x => laneXY A x 0 ^^^ laneXY A x 1 ^^^ laneXY A x 2 ^^^ laneXY A x 3 ^^^ laneXY A x 4

/-- The values `D[x] = C[x-1] xor rotl64(C[x+1], 1)` of theta (R82). -/
def thetaMix (C : Vector Lane 5) : Vector Lane 5 :=
  columnsOf fun x => columnAt C (x + 4) ^^^ rotl64 (columnAt C (x + 1)) 1

/-- THETA (R82). -/
def theta (A : Lanes) : Lanes :=
  let D := thetaMix (columnParities A)
  lanesOf fun x y => laneXY A x y ^^^ columnAt D x

/-- RHOPI, table form (R83): lane `(x, y)`, rotated by `ROT[x + 5*y]`, goes to `(y, 2*x + 3*y mod 5)`. Written for each
destination `(X, Y)`, whose source is `x = X + 3*Y mod 5`, `y = X` (DEDUCED, log entry 17). -/
def rhoPi (A : Lanes) : Lanes :=
  lanesOf fun X Y => rotl64 (laneXY A (X + 3 * Y) X) (rotAmount ((X + 3 * Y) % 5 + 5 * X))

/-- `A[j] <- v`, every other lane as it was. -/
def setLane (A : Lanes) (j : Nat) (v : Lane) : Lanes :=
  lanesOf fun x y => if x + 5 * y = j then v else laneXY A x y

/-- One step of the cycle walk: the carried lane `cur` goes to lane `j`, rotated by `n`, and lane `j` is carried on (R84). -/
def rhoPiWalkStep (acc : Lanes × Lane) (jn : Nat × Nat) : Lanes × Lane :=
  (setLane acc.1 jn.1 (rotl64 acc.2 jn.2), laneXY acc.1 jn.1 (jn.1 / 5))

/-- RHOPI, cycle-walk form from lane `(1, 0)` (R84). The table form is the defining one (D25). -/
def rhoPiWalk (A : Lanes) : Lanes :=
  ((PILN.zip ROTC).foldl rhoPiWalkStep (A, laneXY A 1 0)).1

/-- CHI (R85). -/
def chi (A : Lanes) : Lanes :=
  lanesOf fun x y => laneXY A x y ^^^ (~~~(laneXY A (x + 1) y) &&& laneXY A (x + 2) y)

/-- IOTA with round index `ir` (R86). -/
def iota (A : Lanes) (ir : Nat) : Lanes :=
  A.set 0 (A[0] ^^^ roundConstant ir)

/-- ROUND: theta, rho+pi, chi, iota in that order (R87). -/
def keccakRound (A : Lanes) (ir : Nat) : Lanes :=
  iota (chi (rhoPi (theta A))) ir

/-- KeccakF: the 24 rounds `ir = 0..23` (R88). -/
def keccakF (A : Lanes) : Lanes :=
  (List.range 24).foldl keccakRound A

/-- The 1600-bit vector of 25 lanes: `S[64*i + z] = A[i][z]` (R48). -/
def packLanes (A : Lanes) : PermVec :=
  BitVec.ofNat 1600 (A.toList.foldr (fun lane above => lane.toNat + 2 ^ 64 * above) 0)

/-- The 25 lanes of a 1600-bit vector: `A[i][z] = S[64*i + z]` (R48). -/
def unpackLanes (S : PermVec) : Lanes :=
  lanesOf fun x y => S.extractLsb' (64 * (x + 5 * y)) 64

/-- The permutation module: the response of port P to a request (R63, R88). Stateless, total, deterministic. -/
def permModule (S : PermVec) : PermVec :=
  packLanes (keccakF (unpackLanes S))

end Sys2Proof.Machine
end

