-- ==== Sys2Proof/Machine/Ops.lean ====
section
/-!
DEFINITION. The named operations over the state byte space and the registers: MemRead, MemWrite, XorByte
(spec/20_memory.md R42), the outputs on ports O and S (R47, spec/30_encoding.md R66), the use of port P
(spec/40_permutation.md R89), and raising an error (spec/60_exceptions.md R134). There is no return from an error: the
state after it is the state before it and the next command is accepted (R137).
-/

namespace Sys2Proof.Machine

/-- Byte `j` of a lane, little-endian: bits `8*j+7 : 8*j` (R40, R41). -/
def laneByte (lane : Lane) (j : Nat) : Byte := (lane >>> (8 * j)).setWidth 8

/-- An 8-bit value at byte `j` of a lane of zeros: `zext_64(v) << (8*j)` (R41, R42). -/
def byteInLane (v : Byte) (j : Nat) : Lane := v.setWidth 64 <<< (8 * j)

/-- `MemRead(k, 1)` (R42); an address of 200 or more does not exist (R40). -/
def memRead (A : Lanes) (k : Nat) : Except Fault Byte :=
  if h : k < 200 then .ok (laneByte (A[k / 8]'(by omega)) (k % 8)) else .error (.noSuchStateByte k)

/-- `MemWrite(k, 1, v)` (R42). The hardware itself never uses it: it only ever XORs (R42, R110). -/
def memWrite (A : Lanes) (k : Nat) (v : Byte) : Except Fault Lanes :=
  if h : k < 200 then
    .ok (A.set (k / 8) ((A[k / 8]'(by omega) &&& ~~~(byteInLane 0xFF#8 (k % 8))) ^^^ byteInLane v (k % 8)) (by omega))
  else .error (.noSuchStateByte k)

/-- `XorByte(k, v)` (R42): the only way the sponge writes a byte. -/
def xorByte (A : Lanes) (k : Nat) (v : Byte) : Except Fault Lanes :=
  if h : k < 200 then .ok (A.set (k / 8) (A[k / 8]'(by omega) ^^^ byteInLane v (k % 8)) (by omega))
  else .error (.noSuchStateByte k)

/-- The `n` bytes at the addresses `k, k+1, ..., k+n-1`, read with MemRead one at a time (R45, R104). -/
def readBlock (A : Lanes) (k : Nat) : Nat → Except Fault (List Byte)
  | 0 => .ok []
  | n + 1 =>
    match memRead A k with
    | .error f => .error f
    | .ok b =>
      match readBlock A (k + 1) n with
      | .error f => .error f
      | .ok bs => .ok (b :: bs)

/-- `emit` each byte of `bs` in order: they appear on port O (R47). -/
def emit (bs : List Byte) (s : State) : State := { s with sent := s.sent ++ bs.map .o }

/-- Deliver a command's one status on port S, after all its bytes (R47, R60, R66). -/
def deliver (w : StatusWord) (s : State) : State := { s with sent := s.sent ++ [.s w] }

/-- `done`: the command ends with status OK (R9). -/
def done (s : State) : Host.Outcome State Fault Refusal := .next (deliver statusOk s)

/-- `raise e`, the one operation every error goes through: no register is written, no byte is emitted, the error's code
is delivered on port S, and the machine goes on with the next command (R9, R134). -/
def raise (e : ErrorKind) (s : State) : Host.Outcome State Fault Refusal := .next (deliver (errorCode e) s)

/-- Replace the lanes. -/
def setLanes (A : Lanes) (s : State) : State := { s with lanes := A }

/-- `A <- KeccakF(A)`: one request and one response on port P; the request is the current lanes, and the response
replaces all 25 of them (R89). -/
def permute (s : State) : State :=
  let response := keccakF s.lanes
  { s with
    lanes := response
    permLog := s.permLog ++ [{ request := packLanes s.lanes, response := packLanes response }] }

end Sys2Proof.Machine
end

