-- ==== Sys2Proof/Machine/PortP.lean ====
section
/-!
DEFINITION. The meaning of KECCAKF, the one instruction of port P (spec/30_encoding.md R63, spec/40_permutation.md R88).
-/

namespace Sys2Proof.Machine

/-- KECCAKF (R88): the permutation module answers the request `S` on port P. It holds no state between requests, it
cannot fail, and port P has no status (R66); so the registers and ports O and S are as before. -/
def execKeccakf (S : PermVec) (s : State) : Host.Outcome State Fault Refusal :=
  .next { s with permLog := s.permLog ++ [{ request := S, response := permModule S }] }

end Sys2Proof.Machine
end

