-- ==== Sys2Proof/Machine/Operands.lean ====
section
/-!
DEFINITION. The operand forms. Operand fields are plain unsigned numbers that the decoder has already taken out of the
word (spec/30_encoding.md R64); what is left are INIT's operand check (spec/41_sponge.md R100) and the three address
computations the hardware does by itself: `offset`, `rate - 1`, and the counter `0..n-1` of `readBlock` (R110).
-/

namespace Sys2Proof.Machine

/-- `RATE_MIN`, the smallest legal rate (R6, D9). -/
def rateMin : Nat := 1

/-- The number of bytes of the state, which a legal rate is below (R5, R22). -/
def stateBytes : Nat := 200

/-- INIT's operand check: rates 1..199 are accepted (R64, R100, R131). -/
def rateLegal (rate : Nat) : Bool := decide (rateMin ≤ rate ∧ rate < stateBytes)

/-- The address `offset`, at which ABSORB and the delimiter XOR work (R110). -/
def offsetAddress (s : State) : Nat := s.offset.toNat

/-- The address `rate - 1`, at which 0x80 is XORed (R103, R110). With `rate` 0, which no run reaches (R26), it does not
exist (spec/90_conflicts.md C6). -/
def lastByteAddress (s : State) : Except Fault Nat :=
  if s.rate.toNat = 0 then .error .emptyRateWindow else .ok (s.rate.toNat - 1)

/-- `offset + 1 = rate`, computed on natural numbers: the window is full (R81, R101). -/
def windowFull (s : State) : Bool := decide (s.offset.toNat + 1 = s.rate.toNat)

end Sys2Proof.Machine
end

