-- ==== Sys2Proof/Machine/Sponge.lean ====
section
/-!
DEFINITION. The sponge context operations INIT, ABSORB, FINALIZE (module sha3_sponge_ctx, spec/41_sponge.md), with the
two operations the wrapper commands share with them.
-/

namespace Sys2Proof.Machine

/-- The registers of a fresh context: all lanes 0, `offset` 0, the given rate and delimiter, ABSORBING (R100). -/
def openContext (rate : Nat) (delim : Byte) (s : State) : State :=
  { s with
    lanes := zeroLanes
    rate := BitVec.ofNat 8 rate
    offset := 0#8
    delimiter := delim
    phase := .absorbing }

/-- The operation of INIT (R100), accepted in every phase; INITV is this operation on a row of CFG (R120). -/
def initContext (rate : Nat) (delim : Byte) (s : State) : Host.Outcome State Fault Refusal :=
  if rateLegal rate then done (openContext rate delim s) else raise .invalidRate s

/-- INIT `rate`, `delim` (R100). -/
def execInit (rate : Nat) (delim : Byte) (s : State) : Host.Outcome State Fault Refusal :=
  initContext rate delim s

/-- ABSORB's end: at a full window permute and start again at 0, otherwise move on by one byte (R101). -/
def advanceOffset (s : State) : State :=
  if windowFull s then { permute s with offset := 0#8 } else { s with offset := s.offset + 1#8 }

/-- ABSORB `byte` (R101). -/
def execAbsorb (byte : Byte) (s : State) : Host.Outcome State Fault Refusal :=
  if s.phase = .absorbing then
    match xorByte s.lanes (offsetAddress s) byte with
    | .error f => .fault f
    | .ok A => done (advanceOffset (setLanes A s))
  else raise .misuse s

/-- `Pad()` (R103): XOR the delimiter at `offset`, then XOR 0x80 at `rate - 1`; both apply even at the same byte. -/
def pad (s : State) : Except Fault Lanes :=
  match lastByteAddress s with
  | .error f => .error f
  | .ok last =>
    match xorByte s.lanes (offsetAddress s) s.delimiter with
    | .error f => .error f
    | .ok A => xorByte A last 0x80#8

/-- `Squeeze(rem)` (R104): emit blocks of up to `rate` bytes, each from address 0, with a permutation between two blocks
only when more output remains. `fuel` bounds the number of blocks; `rem` is enough of it, since with a rate of 1 or more
every block has at least one byte. With rate 0 it never progresses (spec/90_conflicts.md C6). -/
def squeeze (fuel rem : Nat) (s : State) : Except Fault State :=
  match fuel with
  | 0 => if rem = 0 then .ok s else .error .emptyRateWindow
  | fuel + 1 =>
    if rem = 0 then .ok s
    else
      match readBlock s.lanes 0 (min rem s.rate.toNat) with
      | .error f => .error f
      | .ok bs =>
        if rem - min rem s.rate.toNat = 0 then .ok (emit bs s)
        else squeeze fuel (rem - min rem s.rate.toNat) (permute (emit bs s))

/-- The operation of FINALIZE (R102); FINALV is this operation with the length of a row of CFG (R121). -/
def finalizeContext (outlen : Nat) (s : State) : Host.Outcome State Fault Refusal :=
  if s.phase = .absorbing then
    match pad s with
    | .error f => .fault f
    | .ok A =>
      match squeeze outlen outlen (permute (setLanes A s)) with
      | .error f => .fault f
      | .ok t => done { t with phase := .finalized }
  else raise .misuse s

/-- FINALIZE `outlen` (R102). -/
def execFinalize (outlen : Nat) (s : State) : Host.Outcome State Fault Refusal :=
  finalizeContext outlen s

end Sys2Proof.Machine
end

