-- ==== Sys2Proof/Machine/Wrappers.lean ====
section
/-!
DEFINITION. The wrapper commands INITV and FINALV (module sha3_224_256_384_512_wrapper, spec/42_wrappers.md). The wrapper
has no register of its own: the variant is not remembered and the pairing is not checked (R33, R121, R155).
-/

namespace Sys2Proof.Machine

/-- INITV `v`: INIT with the rate and the delimiter of row `v` of CFG (R120). -/
def execInitv (v : Variant) (s : State) : Host.Outcome State Fault Refusal :=
  initContext (cfgRate v) cfgDelim s

/-- FINALV `v`: FINALIZE with the output length of row `v` of CFG (R121). -/
def execFinalv (v : Variant) (s : State) : Host.Outcome State Fault Refusal :=
  finalizeContext (cfgOutlen v) s

end Sys2Proof.Machine
end

