-- ==== Sys2Proof/Machine/Dispatch.lean ====
section
/-!
DEFINITION. What each instruction does: one arm per constructor of `Instr`, each one call of its meaning.
-/

namespace Sys2Proof.Machine

def exec (i : Instr) (s : State) : Host.Outcome State Fault Refusal :=
  match i with
  | .keccakf S => Sys2Proof.Machine.execKeccakf S s
  | .init rate delim => Sys2Proof.Machine.execInit rate delim s
  | .absorb byte => Sys2Proof.Machine.execAbsorb byte s
  | .finalize outlen => Sys2Proof.Machine.execFinalize outlen s
  | .initv v => Sys2Proof.Machine.execInitv v s
  | .finalv v => Sys2Proof.Machine.execFinalv v s

end Sys2Proof.Machine
end

