-- ==== Sys2Proof/Machine/HostPort.lean ====
section
/-!
DEFINITION. What the outside can do to the machine (spec/70_reset_and_hazards.md R150, R158): present a transaction,
assert RST between commands, assert RST inside a command; and the observable result of a run (R160).
-/

namespace Sys2Proof.Machine

/-- Execute one presented transaction (R49, R60). A word that is no instruction is examined no further than the decoder
and raises IllegalCommand, in every phase (R65, R133, R136). -/
def present (t : Transaction) (s : State) : Host.Outcome State Fault Refusal :=
  match decode t with
  | .ok i => exec i s
  | .error _ => raise .illegalCommand s

/-- The reset event (R150): the registers take the values of R34, `phase` IDLE and the others unspecified, a fresh draw
each time. No byte and no status is produced; what has been sent stays sent. Log entries 1 and 2. -/
def resetEvent (s : State) : State :=
  { s with
    lanes := Config.resetLanes s.draws
    rate := Config.resetRate s.draws
    offset := Config.resetOffset s.draws
    delimiter := Config.resetDelimiter s.draws
    phase := .idle
    draws := s.draws + 1 }

/-- The bytes of port O among some port events, in order. -/
def bytesOf (events : List PortEvent) : List Byte :=
  events.filterMap fun
    | .o b => some b
    | .s _ => none

/-- The status words of port S among some port events, in order. -/
def statusesOf (events : List PortEvent) : List StatusWord :=
  events.filterMap fun
    | .o _ => none
    | .s w => some w

/-- RST asserted while the word `W` is executing, after it has emitted `emitted` of its bytes (R150): "the bytes it has
already emitted stay emitted, no status is delivered for it, and the state afterwards is the reset state". A command
emits no more than its own bytes. Log entry 9. -/
def presentUntilReset (W : CmdWord) (emitted : Nat) (s : State) : Host.Outcome State Fault Refusal :=
  match present (.c W) s with
  | .next t => .next (resetEvent (emit ((bytesOf (t.sent.drop s.sent.length)).take emitted) s))
  | .fault f => .fault f
  | .refused r => .refused r

/-- Take one input (R158). -/
def takeInput (input : HostInput) (s : State) : Host.Outcome State Fault Refusal :=
  match input with
  | .present t => present t s
  | .rst => .next (resetEvent s)
  | .rstDuring W emitted => presentUntilReset W emitted s

/-- The responses among some port events, one entry per status: the bytes that precede it and the status (R66, R160).
`pending` are the bytes of the response that is not yet complete. -/
def responsesFrom (pending : List Byte) : List PortEvent → List (List Byte × StatusWord)
  | [] => []
  | .o b :: events => responsesFrom (pending ++ [b]) events
  | .s w :: events => (pending, w) :: responsesFrom [] events

/-- The observable result of a run of words presented after `State.reset`: one (output bytes, status) per word (R160).
Meant for runs with no reset inside a command, as R160 defines a run. -/
def observed (s : State) : List (List Byte × StatusWord) := responsesFrom [] s.sent

end Sys2Proof.Machine
end

