-- ==== Sys2Proof/Machine/Step.lean ====
section
/-!
DEFINITION. One step of the machine: take the next thing the host presents (spec/20_memory.md R49). There is no program
counter and no fetch (spec/10_state.md R27).
-/

namespace Sys2Proof.Machine

/-- Take the first of the pending inputs and carry it out to completion. With none the CORE waits for a command, which
has no architectural meaning (R142, row H6): the state stays as it is. Log entry 3. -/
def step (s : State) : Host.Outcome State Fault Refusal :=
  match s.inputs with
  | [] => .next s
  | input :: rest => takeInput input { s with inputs := rest }

/-- `s` with the instruction whose bits are `w` (numbered as the opcode table numbers them) presented next. The machine
fetches nothing: an instruction runs because the host presents it (R27, R158). Log entries 3 and 6. -/
def State.withFetchWord (s : State) (nbits w : Nat) : State :=
  { s with inputs := .present (tableTransaction nbits w) :: s.inputs }

end Sys2Proof.Machine
end

