-- ==== Sys2Proof/Machine/Pseudo.lean ====
section
/-!
DEFINITION. The pseudo-instructions UPDATE and DIGEST_n, which stand for sequences of commands and have no encoding of
their own (spec/30_encoding.md R69, spec/42_wrappers.md R122), and the execution of a sequence.
-/

namespace Sys2Proof.Machine

/-- Execute instructions one after the other, each to completion, in order (R49). -/
def execAll : List Instr → State → Host.Outcome State Fault Refusal
  | [], s => .next s
  | i :: rest, s =>
    match exec i s with
    | .next t => execAll rest t
    | .fault f => .fault f
    | .refused r => .refused r

/-- UPDATE: one ABSORB per byte, in order; no command at all for no byte (R69). -/
def updateCommands (m : List Byte) : List Instr := m.map .absorb

/-- DIGEST_n of the message `m` for the variant `v`: INITV, UPDATE, FINALV (R69, R122). -/
def digestCommands (v : Variant) (m : List Byte) : List Instr :=
  .initv v :: (updateCommands m ++ [.finalv v])

/-- The words of port C (and requests of port P) that present a sequence of instructions. -/
def presentAll (is : List Instr) : List HostInput := is.map fun i => .present (encode i)

end Sys2Proof.Machine
end

