-- ==== Sys2Proof/Safety.lean ====
section
/-!
DEFINITION. What a good state is, and the terms in which the statements say what the machine does.
-/

namespace Sys2Proof.Machine

/-! ## Good states -/

/-- The invariant of a context, "holding between commands whenever `phase` is not IDLE": `1 ≤ rate ≤ 199` and
`0 ≤ offset < rate` (spec/10_state.md R26 a and b). -/
abbrev State.ContextInv (s : State) : Prop :=
  s.phase ≠ .idle → 1 ≤ s.rate.toNat ∧ s.rate.toNat ≤ 199 ∧ s.offset.toNat < s.rate.toNat

/-- Every status on port S is one of the four of spec/30_encoding.md R66; 0x04..0xFF are never produced (U5). -/
abbrev State.StatusesKnown (s : State) : Prop :=
  ∀ w ∈ statusesOf s.sent, w = 0x00#8 ∨ w = 0x01#8 ∨ w = 0x02#8 ∨ w = 0x03#8

/-- Every response that port P has given is the permutation of its request (spec/40_permutation.md R88, R89). -/
abbrev State.PermLogRight (s : State) : Prop :=
  ∀ call ∈ s.permLog, call.response = permModule call.request

/-- Two states with no context that agree on everything but what reset leaves unspecified: the lanes, `rate`, `offset`
and `delimiter` (spec/10_state.md R34). -/
abbrev State.SameButUnspecified (s t : State) : Prop :=
  s.phase = .idle ∧ t.phase = .idle ∧ s.inputs = t.inputs ∧ s.sent = t.sent ∧ s.permLog = t.permLog ∧ s.draws = t.draws

/-- The machine goes on: the outcome is a next state, with the property. -/
abbrev NextWith (outcome : Host.Outcome State Fault Refusal) (p : State → Prop) : Prop :=
  ∃ t, outcome = .next t ∧ p t

/-! ## Bytes and repeated permutations -/

/-- The byte at address `k` of the state byte space, for `k < 200` (R40). -/
def byteAt (A : Lanes) (k : Nat) : Byte := (memRead A k).toOption.getD 0#8

/-- `KeccakF` applied `n` times. -/
def keccakTimes : Nat → Lanes → Lanes
  | 0, A => A
  | n + 1, A => keccakF (keccakTimes n A)

/-- The lanes whose byte `k` is `f k`, for `k` in 0..199 (R40, R41). -/
def lanesOfBytes (f : Nat → Byte) : Lanes :=
  lanesOf fun x y => (List.range 8).foldl (fun acc j => acc ^^^ byteInLane (f (8 * (x + 5 * y) + j)) j) 0#64

/-- XOR of two states, lane by lane (R105). -/
def xorLanes (A B : Lanes) : Lanes := lanesOf fun x y => laneXY A x y ^^^ laneXY B x y

/-! ## The effect of Pad and FINALIZE -/

/-- `A` is the lanes of `s` after Pad: the delimiter XORed at `offset`, 0x80 XORed at `rate - 1`, both applied even at the
same byte, and no other byte changed (spec/41_sponge.md R103). -/
abbrev PadEffect (s : State) (A : Lanes) : Prop :=
  ∀ k, k < 200 →
    byteAt A k =
      byteAt s.lanes k ^^^ (if k = s.offset.toNat then s.delimiter else 0#8)
        ^^^ (if k = s.rate.toNat - 1 then 0x80#8 else 0#8)

/-- The number of permutations FINALIZE applies for `outlen` bytes at rate `r`: `1 + max(0, ceil(outlen / r) - 1)` (R106);
the subtraction is on natural numbers. -/
def finalizePerms (r outlen : Nat) : Nat := 1 + ((outlen + r - 1) / r - 1)

/-- The calls of port P when `n` permutations are applied one after the other from `A` (R89). -/
def permCalls (A : Lanes) (n : Nat) : List PermCall :=
  (List.range n).map fun i =>
    { request := packLanes (keccakTimes i A), response := packLanes (keccakTimes (i + 1) A) }

/-- From `s` to `t` port P has carried calls one after the other from the lanes `start`, and their last response is the
lanes of `t`: each request is the lanes at that moment (R89). If `active` does not hold there was no call. -/
def CallsFrom (active : Prop) (start : Except Fault Lanes) (s t : State) : Prop :=
  (¬active → t.permLog = s.permLog ∧ t.lanes = s.lanes) ∧
  (active → ∃ A n, start = .ok A ∧ t.permLog = s.permLog ++ permCalls A n ∧ t.lanes = keccakTimes n A)

/-- Output byte `j` when squeezing at rate `r` begins from the padded lanes `A`: the byte at address `j mod r` of the
lanes after `1 + j div r` permutations (R102, R104). -/
def squeezedByte (r : Nat) (A : Lanes) (j : Nat) : Byte := byteAt (keccakTimes (1 + j / r) A) (j % r)

/-- The state after a successful FINALIZE of `outlen` bytes in `s`, whose padded lanes are `A` (R102): the lanes as the
last permutation left them, `phase` FINALIZED, exactly `outlen` bytes and then OK sent; `rate`, `offset`, `delimiter`
and everything else as before. -/
def afterFinalize (outlen : Nat) (A : Lanes) (s : State) : State :=
  { s with
    lanes := keccakTimes (finalizePerms s.rate.toNat outlen) A
    phase := .finalized
    permLog := s.permLog ++ permCalls A (finalizePerms s.rate.toNat outlen)
    sent := s.sent ++ ((List.range outlen).map (squeezedByte s.rate.toNat A)).map .o ++ [.s 0x00#8] }

/-! ## The effect of absorption from any context -/

/-- The byte that absorbing `m` at rate `r` from offset `o` brings to address `k` in window `j`, counting windows from the
one in progress: message byte `j*r + k - o` where there is one, else 0 (R46, R101). -/
def windowByte (r o : Nat) (m : List Byte) (j k : Nat) : Byte :=
  if k < r ∧ o ≤ j * r + k then m.getD (j * r + k - o) 0#8 else 0#8

/-- The lanes `A` after the first `j` windows of that absorption, each filled by XOR and then permuted (R101). -/
def absorbedWindows (r o : Nat) (m : List Byte) (A : Lanes) : Nat → Lanes
  | 0 => A
  | j + 1 => keccakF (xorLanes (absorbedWindows r o m A j) (lanesOfBytes (windowByte r o m j)))

/-- The state after absorbing `m` in `s`, `offset` apart: the windows that became full are permuted, the bytes of the last
one stand XORed in the lanes, port P has carried one call per full window, and every byte is answered with OK (R101). -/
def afterAbsorb (m : List Byte) (offset : BitVec 8) (s : State) : State :=
  let W := absorbedWindows s.rate.toNat s.offset.toNat m s.lanes
  let filled := fun j => xorLanes (W j) (lanesOfBytes (windowByte s.rate.toNat s.offset.toNat m j))
  let full := (s.offset.toNat + m.length) / s.rate.toNat
  { s with
    lanes := filled full
    offset := offset
    permLog := s.permLog ++
      (List.range full).map fun j => { request := packLanes (filled j), response := packLanes (W (j + 1)) }
    sent := s.sent ++ List.replicate m.length (.s 0x00#8) }

/-! ## The closed form of a digest (spec/41_sponge.md R105) -/

/-- The byte at address `k` of the block `P[j]` of the message `m` at rate `r` with delimiter `d` (R105): message bytes
inside the rate window, and in block `n div r` the delimiter at address `n mod r` and 0x80 at `r - 1`. -/
def blockByte (r : Nat) (d : Byte) (m : List Byte) (j k : Nat) : Byte :=
  (if k < r then m.getD (j * r + k) 0#8 else 0#8)
    ^^^ (if j = m.length / r then
          (if k = m.length % r then d else 0#8) ^^^ (if k = r - 1 then 0x80#8 else 0#8)
        else 0#8)

/-- `Z[j]` (R105): `Z[0]` is the all-zero state, `Z[j+1] = KeccakF(Z[j] xor P[j])`. -/
def chained (r : Nat) (d : Byte) (m : List Byte) : Nat → Lanes
  | 0 => zeroLanes
  | j + 1 => keccakF (xorLanes (chained r d m j) (lanesOfBytes (blockByte r d m j)))

/-- Output byte `j` of a digest (R105): the byte at address `j mod r` of `Y[j div r]`, where `Y[0] = Z[q+1]`,
`q = n div r`, and `Y[i+1] = KeccakF(Y[i])`. -/
def digestByte (r : Nat) (d : Byte) (m : List Byte) (j : Nat) : Byte :=
  byteAt (keccakTimes (j / r) (chained r d m (m.length / r + 1))) (j % r)

end Sys2Proof.Machine
end

