-- ==== Sys2Proof/Certificates/Slice0/Obligations.lean ====
section
/-!
DEFINITION. The statements for the provers. Each docstring names the rules of spec/ it formalises. Statements on register
contents that no run reaches carry `ContextInv` as a premise, which is itself an invariant (StepKeepsContextInvariant).
-/

open Sys2Proof Sys2Proof.Machine

/-! ## Encoding (spec/30_encoding.md) -/

/-- R67, first half: `decode(encode(i)) = i` for every instruction in range, with every operand at every value. -/
def Obligations.DecodeOfEncodeIsTheInstruction : Prop :=
  ∀ i : Instr, i.wellFormed = true → decode (encode i) = .ok i

/-- R67, second half: `encode(decode(W)) = W` for every `W` that is not illegal; and what is decoded is in range. -/
def Obligations.EncodeOfDecodeIsTheTransaction : Prop :=
  ∀ (t : Transaction) (i : Instr), decode t = .ok i → encode i = t ∧ i.wellFormed = true

/-- R64: a word is the instruction of a row when `(W and mask) = match`; its operands are the plain unsigned numbers of
their bits; on port P every request is KECCAKF. -/
def Obligations.OpcodeTableRowsReadTheirFields : Prop :=
  (∀ W : CmdWord, W &&& 0xFFFF0000#32 = 0x01000000#32 →
    decode (.c W) = .ok (.init (W.toNat / 2 ^ 8 % 2 ^ 8) (BitVec.ofNat 8 (W.toNat % 2 ^ 8)))) ∧
  (∀ W : CmdWord, W &&& 0xFFFFFF00#32 = 0x02000000#32 →
    decode (.c W) = .ok (.absorb (BitVec.ofNat 8 (W.toNat % 2 ^ 8)))) ∧
  (∀ W : CmdWord, W &&& 0xFF000000#32 = 0x03000000#32 →
    decode (.c W) = .ok (.finalize (W.toNat % 2 ^ 24))) ∧
  (∀ W : CmdWord, W &&& 0xFFFFFFFC#32 = 0x04000000#32 →
    ∃ v, variantNumber v = W.toNat % 4 ∧ decode (.c W) = .ok (.initv v)) ∧
  (∀ W : CmdWord, W &&& 0xFFFFFFFC#32 = 0x05000000#32 →
    ∃ v, variantNumber v = W.toNat % 4 ∧ decode (.c W) = .ok (.finalv v)) ∧
  (∀ S : PermVec, decode (.p S) = .ok (.keccakf S))

/-- R65, R133, R136: the illegal words are exactly the cases (a) to (d), with `op` the word's top byte; presented in any
phase, such a word is answered with ILLEGAL_COMMAND alone, and nothing else changes. -/
def Obligations.IllegalWordsAreExactlyTheReservedOnes : Prop :=
  ∀ W : CmdWord,
    let op := W.toNat / 2 ^ 24
    let reserved := op = 0x00 ∨ 0x06 ≤ op ∨ (op = 0x01 ∧ W.toNat / 2 ^ 16 % 2 ^ 8 ≠ 0) ∨
      (op = 0x02 ∧ W.toNat / 2 ^ 8 % 2 ^ 16 ≠ 0) ∨ ((op = 0x04 ∨ op = 0x05) ∧ W.toNat / 2 ^ 2 % 2 ^ 22 ≠ 0)
    (reserved → ∀ (s : State) (rest : List HostInput), s.inputs = .present (.c W) :: rest →
      step s = .next { s with inputs := rest, sent := s.sent ++ [.s 0x03#8] }) ∧
    (¬reserved → ∃ i, decode (.c W) = .ok i)

/-- R62, R67, V30, V36: words written out from the formats decode to what they stand for (a sanity statement). The last two
clauses go through `decodeTableWord`: that a table word of 1600 bits is a request of port P and one of 32 bits a word of
port C is the model's choice (log entry 6), and so is that an illegal word is answered with none (log entry 20). -/
def Obligations.WrittenOutWordsDecode : Prop :=
  decode (.c 0x01008806#32) = .ok (.init 136 0x06#8) ∧ decode (.c 0x0100C7FF#32) = .ok (.init 199 0xFF#8) ∧
  decode (.c 0x02000061#32) = .ok (.absorb 0x61#8) ∧ decode (.c 0x03FFFFFF#32) = .ok (.finalize 16777215) ∧
  decode (.c 0x04000003#32) = .ok (.initv .sha3_512) ∧ decode (.c 0x05000001#32) = .ok (.finalv .sha3_256) ∧
  decodeTableWord 1600 1 = some (.keccakf 1#1600) ∧ decodeTableWord 32 0x02000161 = none

/-! ## The permutation (spec/40_permutation.md) -/

/-- R80: amount 0 leaves the lane unchanged; for 1..63 the two shifted parts are combined; bit `(z + n) mod 64` of the
result is bit `z` of the operand. -/
def Obligations.RotlMovesEveryBit : Prop :=
  ∀ (v : Lane) (n : Nat), n < 64 →
    (n = 0 → rotl64 v n = v) ∧
    (1 ≤ n → (rotl64 v n).toNat = (v.toNat * 2 ^ n % 2 ^ 64) ^^^ (v.toNat / 2 ^ (64 - n))) ∧
    (∀ z, z < 64 → (rotl64 v n).getLsbD ((z + n) % 64) = v.getLsbD z)

/-- R82: bit `z` of lane `(x, y)` after theta is that bit before, the parity of column `x-1` at `z` and the parity of
column `x+1` at `z-1` (bit 63 wraps into bit 0), all XORed. -/
def Obligations.ThetaMixesColumnParities : Prop :=
  ∀ (A : Lanes) (x y z : Nat), x < 5 → y < 5 → z < 64 →
    let parity := fun (c b : Nat) => Bool.xor ((laneXY A c 0).getLsbD b) (Bool.xor ((laneXY A c 1).getLsbD b)
      (Bool.xor ((laneXY A c 2).getLsbD b) (Bool.xor ((laneXY A c 3).getLsbD b) ((laneXY A c 4).getLsbD b))))
    (laneXY (theta A) x y).getLsbD z =
      Bool.xor ((laneXY A x y).getLsbD z) (Bool.xor (parity ((x + 4) % 5) z) (parity ((x + 1) % 5) ((z + 63) % 64)))

/-- R83, R30: rho+pi moves the lane at `(x, y)`, rotated left by `ROT[x + 5*y]`, to `(y, 2*x + 3*y mod 5)`; no two lanes
go to one place; and the amounts are those of R30's generating rule, which names every lane but lane 0. The amounts are
general knowledge (the spec's decision D20, log entry 11). -/
def Obligations.RhoPiRelocatesEveryLane : Prop :=
  (∀ (A : Lanes) (x y : Nat), x < 5 → y < 5 →
    laneXY (rhoPi A) y ((2 * x + 3 * y) % 5) = rotl64 (laneXY A x y) (rotAmount (x + 5 * y))) ∧
  (∀ x y x' y' : Nat, x < 5 → y < 5 → x' < 5 → y' < 5 →
    y + 5 * ((2 * x + 3 * y) % 5) = y' + 5 * ((2 * x' + 3 * y') % 5) → x = x' ∧ y = y') ∧
  rotAmount 0 = 0 ∧ (∀ p ∈ generatedRotations 24 0 1 0, rotAmount p.1 = p.2) ∧
  (∀ i, 1 ≤ i → i < 25 → ∃ n, (i, n) ∈ generatedRotations 24 0 1 0)

/-- R84: the in-place cycle walk from lane `(1, 0)` computes the same lanes as the table form. -/
def Obligations.RhoPiWalkEqualsTableForm : Prop :=
  ∀ A : Lanes, rhoPiWalk A = rhoPi A

/-- R85: chi combines the three lanes of a row bit by bit, all three as they were before the step. -/
def Obligations.ChiUsesTheRowBeforeTheStep : Prop :=
  ∀ (A : Lanes) (x y z : Nat), x < 5 → y < 5 → z < 64 →
    (laneXY (chi A) x y).getLsbD z =
      Bool.xor ((laneXY A x y).getLsbD z)
        (!(laneXY A ((x + 1) % 5) y).getLsbD z && (laneXY A ((x + 2) % 5) y).getLsbD z)

/-- R86, R29: iota XORs `RC[ir]` into lane `(0, 0)` and leaves every other lane alone; and `RC[ir]` is what R29's
generating rule gives. The constants are general knowledge (the spec's decision D20, log entry 11). -/
def Obligations.IotaTouchesOnlyLaneZero : Prop :=
  ∀ (A : Lanes) (ir : Nat), ir < 24 →
    laneXY (iota A ir) 0 0 = laneXY A 0 0 ^^^ roundConstant ir ∧ roundConstant ir = generatedRoundConstant ir ∧
    (∀ x y, x < 5 → y < 5 → (x, y) ≠ (0, 0) → laneXY (iota A ir) x y = laneXY A x y)

/-- R87, R88: a KECCAKF request is answered on port P with the lanes after the 24 rounds theta, rho+pi, chi, iota with
`ir = 0..23`; both vectors have bit `z` of lane `i` at `64*i + z`; nothing else changes, so it completes in every state.
That KECCAKF can be run on the CORE's state, which keeps all registers, sends nothing and has its answer in `permLog`, is
the model's choice (log entry 5): the host cannot reach port P (R60, R158). -/
def Obligations.KeccakfAnswersTwentyFourRounds : Prop :=
  ∀ (S : PermVec) (A : Lanes) (s : State),
    (∀ (i : Nat) (h : i < 25) (z : Nat), z < 64 → S.getLsbD (64 * i + z) = A[i].getLsbD z) →
    ∃ R : PermVec,
      exec (.keccakf S) s = .next { s with permLog := s.permLog ++ [{ request := S, response := R }] } ∧
      (∀ (i : Nat) (h : i < 25) (z : Nat), z < 64 →
        R.getLsbD (64 * i + z) =
          ((List.range 24).foldl (fun B ir => iota (chi (rhoPi (theta B))) ir) A)[i].getLsbD z)

/-! ## The state byte space (spec/20_memory.md) -/

/-- R48: the layout of the 1600-bit vector, bit by bit and byte by byte, and that nothing is lost either way. -/
def Obligations.PortPVectorLayout : Prop :=
  (∀ (A : Lanes) (i : Nat) (h : i < 25) (z : Nat), z < 64 → (packLanes A).getLsbD (64 * i + z) = A[i].getLsbD z) ∧
  (∀ (A : Lanes) (k : Nat), k < 200 → memRead A k = .ok ((packLanes A).extractLsb' (8 * k) 8)) ∧
  (∀ A : Lanes, unpackLanes (packLanes A) = A) ∧ (∀ S : PermVec, packLanes (unpackLanes S) = S)

/-- R41: little-endian bytes: bit `b` of the byte at `k` is bit `8*(k mod 8) + b` of lane `k div 8`, a lane is the sum of
its bytes times powers of 256, and XORing a byte changes its lane by the shifted value and no other lane. -/
def Obligations.LanesAreLittleEndianBytes : Prop :=
  (∀ (A : Lanes) (k : Nat) (h : k < 200) (b : Nat), b < 8 →
    (byteAt A k).getLsbD b = (A[k / 8]'(by omega)).getLsbD (8 * (k % 8) + b)) ∧
  (∀ (A : Lanes) (i : Nat) (h : i < 25),
    A[i].toNat = ((List.range 8).map fun j => (byteAt A (8 * i + j)).toNat * 256 ^ j).sum) ∧
  (∀ (A B : Lanes) (k : Nat) (v : Byte), xorByte A k v = .ok B → ∀ (i : Nat) (h : i < 25),
    B[i] = if i = k / 8 then A[i] ^^^ (v.setWidth 64 <<< (8 * (k % 8))) else A[i])

/-- R42: what MemRead, MemWrite and XorByte compute on the lane they touch, and that they touch no other; XorByte is
MemWrite of the XORed byte; two XorBytes at one address compose (an inference the spec marks as derived in R42). -/
def Obligations.XorByteAndMemWriteTouchOneByte : Prop :=
  ∀ (A : Lanes) (k : Nat) (v : Byte) (hk : k < 200),
    ∃ B C : Lanes, xorByte A k v = .ok B ∧ memWrite A k v = .ok C ∧
      memRead A k = .ok (BitVec.ofNat 8 ((A[k / 8]'(by omega)).toNat / 256 ^ (k % 8))) ∧
      (∀ (i : Nat) (h : i < 25),
        B[i] = (if i = k / 8 then A[i] ^^^ (v.setWidth 64 <<< (8 * (k % 8))) else A[i]) ∧
        C[i] = (if i = k / 8 then
            (A[i] &&& ~~~(0xFF#64 <<< (8 * (k % 8)))) ^^^ (v.setWidth 64 <<< (8 * (k % 8)))
          else A[i])) ∧
      memRead B k = .ok (byteAt A k ^^^ v) ∧ memRead C k = .ok v ∧
      (∀ j, j ≠ k → memRead B j = memRead A j ∧ memRead C j = memRead A j) ∧
      xorByte A k v = memWrite A k (byteAt A k ^^^ v) ∧
      (∀ w : Byte, xorByte B k w = xorByte A k (v ^^^ w))

/-- R40: the space has exactly 200 bytes. That an access beyond them faults is the model's choice (log entry 8). -/
def Obligations.NoByteBeyondTheState : Prop :=
  ∀ (A : Lanes) (k : Nat) (v : Byte), 200 ≤ k →
    memRead A k = .error (.noSuchStateByte k) ∧ memWrite A k v = .error (.noSuchStateByte k) ∧
    xorByte A k v = .error (.noSuchStateByte k)

/-- R43: the byte operations of ABSORB and of Pad leave every capacity byte, `rate..199`, as it was. -/
def Obligations.CapacityIsNeverXored : Prop :=
  ∀ (s : State) (A : Lanes) (b : Byte), s.ContextInv → s.phase ≠ .idle →
    (xorByte s.lanes s.offset.toNat b = .ok A ∨ pad s = .ok A) →
    ∀ k, s.rate.toNat ≤ k → k < 200 → memRead A k = memRead s.lanes k

/-! ## INIT and INITV (spec/41_sponge.md R100, spec/42_wrappers.md R120) -/

/-- R100: INIT with a rate of 1..199 zeroes the lanes and `offset`, stores rate and delimiter, enters ABSORBING and ends
with OK, in every phase; with rate 0 (the spec's decision D9) or 200 and more it ends with INVALID_RATE and changes nothing else. -/
def Obligations.InitOpensAFreshContext : Prop :=
  ∀ (rate : Nat) (delim : Byte) (s : State),
    (1 ≤ rate ∧ rate ≤ 199 →
      ∃ t, exec (.init rate delim) s = .next t ∧ t.rate.toNat = rate ∧
        t = { s with
              lanes := Vector.replicate 25 0#64
              rate := t.rate
              offset := 0#8
              delimiter := delim
              phase := .absorbing
              sent := s.sent ++ [.s 0x00#8] }) ∧
    (rate = 0 ∨ 200 ≤ rate → exec (.init rate delim) s = .next { s with sent := s.sent ++ [.s 0x01#8] })

/-- R120: INITV 0, 1, 2, 3 are INIT(144, 0x06), INIT(136, 0x06), INIT(104, 0x06), INIT(72, 0x06); they complete in every
state and the variant is not remembered. The delimiter 0x06 is the spec's `CFG_DELIM` (R124). -/
def Obligations.InitvOpensItsRow : Prop :=
  ∀ (v : Variant) (s : State),
    exec (.initv v) s = .next
      { s with
        lanes := Vector.replicate 25 0#64
        rate := match v with | .sha3_224 => 144#8 | .sha3_256 => 136#8 | .sha3_384 => 104#8 | .sha3_512 => 72#8
        offset := 0#8
        delimiter := 0x06#8
        phase := .absorbing
        sent := s.sent ++ [.s 0x00#8] }

/-! ## ABSORB (spec/41_sponge.md R101) -/

/-- R101: in ABSORBING, exactly the byte at `offset` is XORed; if that fills the window the lanes are permuted in the same
command and `offset` becomes 0, otherwise `offset` grows by one; status OK; nothing else changes. In any other phase
nothing changes but that MISUSE is delivered. -/
def Obligations.AbsorbXorsThenAdvancesOrPermutes : Prop :=
  ∀ (b : Byte) (s : State),
    (s.ContextInv → s.phase = .absorbing →
      ∃ A : Lanes,
        (∀ k, k < 200 → byteAt A k = if k = s.offset.toNat then byteAt s.lanes k ^^^ b else byteAt s.lanes k) ∧
        (s.offset.toNat + 1 = s.rate.toNat →
          exec (.absorb b) s = .next
            { s with
              lanes := keccakF A
              offset := 0#8
              permLog := s.permLog ++ [{ request := packLanes A, response := packLanes (keccakF A) }]
              sent := s.sent ++ [.s 0x00#8] }) ∧
        (s.offset.toNat + 1 ≠ s.rate.toNat →
          ∃ o : BitVec 8, o.toNat = s.offset.toNat + 1 ∧
            exec (.absorb b) s = .next { s with lanes := A, offset := o, sent := s.sent ++ [.s 0x00#8] })) ∧
    (s.phase ≠ .absorbing → exec (.absorb b) s = .next { s with sent := s.sent ++ [.s 0x02#8] })

/-- R132 (the table of 95_test_vectors.md V31): ABSORB, FINALIZE and FINALV outside ABSORBING end with MISUSE and
change nothing else, in IDLE and in FINALIZED; INIT and INITV never end with MISUSE. -/
def Obligations.MisuseOutsideAbsorbing : Prop :=
  (∀ s : State, s.phase ≠ .absorbing →
    (∀ b, exec (.absorb b) s = .next { s with sent := s.sent ++ [.s 0x02#8] }) ∧
    (∀ n, exec (.finalize n) s = .next { s with sent := s.sent ++ [.s 0x02#8] }) ∧
    (∀ v, exec (.finalv v) s = .next { s with sent := s.sent ++ [.s 0x02#8] })) ∧
  (∀ (s t : State) (rate : Nat) (delim : Byte) (v : Variant),
    exec (.init rate delim) s = .next t ∨ exec (.initv v) s = .next t → t.sent ≠ s.sent ++ [.s 0x02#8])

/-- R26 e: after a successful INIT at rate `r` and the bytes `m`, `offset` is `n mod r` and the permutation has been
applied `n div r` times. -/
def Obligations.OffsetCountsTheBytesAbsorbed : Prop :=
  ∀ (r : Nat) (d : Byte) (m : List Byte) (s : State), 1 ≤ r → r ≤ 199 →
    NextWith (execAll (.init r d :: updateCommands m) s) fun t =>
      t.offset.toNat = m.length % r ∧ t.permLog.length = s.permLog.length + m.length / r ∧
      t.phase = .absorbing ∧ t.rate.toNat = r ∧ t.delimiter = d

/-- R107: absorbing two chunks one after the other is absorbing their concatenation, from every state; and whatever the
chunks, the digest is the closed form for their concatenation. -/
def Obligations.AbsorptionIsChunkIndependent : Prop :=
  (∀ (c1 c2 : List Byte) (s : State),
    execAll (updateCommands (c1 ++ c2)) s =
      match execAll (updateCommands c1) s with
      | .next t => execAll (updateCommands c2) t
      | .fault f => .fault f
      | .refused r => .refused r) ∧
  (∀ (r : Nat) (d : Byte) (chunks : List (List Byte)) (outlen : Nat) (s : State), 1 ≤ r → r ≤ 199 →
    NextWith (execAll (.init r d :: ((chunks.map updateCommands).flatten ++ [.finalize outlen])) s) fun t =>
      bytesOf (t.sent.drop s.sent.length) = (List.range outlen).map (digestByte r d chunks.flatten))

/-- R101, R107: from every ABSORBING context, absorbing chunks one after the other leaves the state that depends on their
concatenation `m` alone: `offset` has advanced by the length of `m` modulo `rate`, every window that became full has been
permuted once, and all else is as before. -/
def Obligations.AbsorptionDependsOnTheConcatenation : Prop :=
  ∀ (chunks : List (List Byte)) (s : State), s.ContextInv → s.phase = .absorbing →
    ∃ o : BitVec 8, o.toNat = (s.offset.toNat + chunks.flatten.length) % s.rate.toNat ∧
      execAll (chunks.map updateCommands).flatten s = .next (afterAbsorb chunks.flatten o s)

/-! ## FINALIZE and FINALV (spec/41_sponge.md R102 to R104, spec/42_wrappers.md R121) -/

/-- R103: Pad XORs the delimiter at `offset` and 0x80 at `rate - 1`, both even at the same byte, and no other byte. -/
def Obligations.PadXorsBothBytes : Prop :=
  ∀ s : State, s.ContextInv → s.phase ≠ .idle → ∃ A, pad s = .ok A ∧ PadEffect s A

/-- R102, R104: in ABSORBING, FINALIZE pads, permutes once, emits exactly `outlen` bytes, byte `j` being the byte at
address `j mod rate` after `1 + j div rate` permutations, applies no permutation after the last block, ends with OK in
FINALIZED, and leaves `rate`, `offset` and `delimiter` alone. In any other phase nothing changes but that MISUSE is
delivered. -/
def Obligations.FinalizePadsPermutesAndSqueezes : Prop :=
  ∀ (outlen : Nat) (s : State),
    (s.ContextInv → s.phase = .absorbing →
      ∃ A, PadEffect s A ∧ exec (.finalize outlen) s = .next (afterFinalize outlen A s)) ∧
    (s.phase ≠ .absorbing → exec (.finalize outlen) s = .next { s with sent := s.sent ++ [.s 0x02#8] })

/-- R121: FINALV 0, 1, 2, 3 are FINALIZE(28), FINALIZE(32), FINALIZE(48), FINALIZE(64) on whatever context exists, and
MISUSE in any other phase. -/
def Obligations.FinalvSqueezesItsRowsLength : Prop :=
  ∀ (v : Variant) (s : State),
    (s.ContextInv → s.phase = .absorbing →
      ∃ A, PadEffect s A ∧
        exec (.finalv v) s = .next
          (afterFinalize (match v with | .sha3_224 => 28 | .sha3_256 => 32 | .sha3_384 => 48 | .sha3_512 => 64) A s)) ∧
    (s.phase ≠ .absorbing → exec (.finalv v) s = .next { s with sent := s.sent ++ [.s 0x02#8] })

/-- R153: for the same context the output of FINALIZE `a` is the first `a` bytes of the output of FINALIZE `b`, `a ≤ b`. -/
def Obligations.ShorterOutputIsTheBeginningOfLonger : Prop :=
  ∀ (a b : Nat) (s t u : State), a ≤ b → s.phase = .absorbing →
    exec (.finalize a) s = .next t → exec (.finalize b) s = .next u →
    bytesOf (t.sent.drop s.sent.length) = (bytesOf (u.sent.drop s.sent.length)).take a

/-- R152: a context accepts exactly one FINALIZE or FINALV: after one with status OK, every ABSORB, FINALIZE and FINALV is
answered with MISUSE and has no effect. -/
def Obligations.FinalizeIsSingleShot : Prop :=
  ∀ (i : Instr) (s t : State), ((∃ n, i = .finalize n) ∨ (∃ v, i = .finalv v)) → s.phase = .absorbing →
    exec i s = .next t →
    ∀ j : Instr, ((∃ b, j = .absorb b) ∨ (∃ n, j = .finalize n) ∨ (∃ v, j = .finalv v)) →
      exec j t = .next { t with sent := t.sent ++ [.s 0x02#8] }

/-! ## Whole digests -/

/-- R106: for a message of `n` bytes at rate `r` and `L` bytes of output, absorption permutes exactly `n div r` times and
FINALIZE `1 + max(0, ceil(L / r) - 1)` times. -/
def Obligations.PermutationCountOfADigest : Prop :=
  ∀ (r : Nat) (d : Byte) (m : List Byte) (outlen : Nat) (s : State), 1 ≤ r → r ≤ 199 →
    NextWith (execAll (.init r d :: updateCommands m) s) fun t =>
      t.permLog.length = s.permLog.length + m.length / r ∧
      NextWith (exec (.finalize outlen) t) fun u =>
        u.permLog.length = t.permLog.length + (1 + ((outlen + r - 1) / r - 1))

/-- R105: the closed form. INIT, the ABSORBs of `m` and FINALIZE all end with OK and emit the first `L` bytes squeezed
from `KeccakF(... KeccakF(0 xor P[0]) ... xor P[q])`, whatever state the sequence starts in. -/
def Obligations.DigestClosedForm : Prop :=
  ∀ (r : Nat) (d : Byte) (m : List Byte) (outlen : Nat) (s : State), 1 ≤ r → r ≤ 199 →
    NextWith (execAll (.init r d :: (updateCommands m ++ [.finalize outlen])) s) fun t =>
      bytesOf (t.sent.drop s.sent.length) = (List.range outlen).map (digestByte r d m) ∧
      statusesOf (t.sent.drop s.sent.length) = List.replicate (m.length + 2) 0x00#8

/-- R122: DIGEST_224, _256, _384, _512 of every message end with OK throughout, from whatever phase, and yield the first
28, 32, 48, 64 bytes of the closed form at rates 144, 136, 104, 72 with delimiter 0x06 (`CFG_DELIM`, R124). -/
def Obligations.DigestFunctionsFollowTheClosedForm : Prop :=
  ∀ (v : Variant) (m : List Byte) (s : State),
    NextWith (execAll (digestCommands v m) s) fun t =>
      bytesOf (t.sent.drop s.sent.length) =
        (match v with
          | .sha3_224 => (List.range 28).map (digestByte 144 0x06#8 m)
          | .sha3_256 => (List.range 32).map (digestByte 136 0x06#8 m)
          | .sha3_384 => (List.range 48).map (digestByte 104 0x06#8 m)
          | .sha3_512 => (List.range 64).map (digestByte 72 0x06#8 m)) ∧
      statusesOf (t.sent.drop s.sent.length) = List.replicate (m.length + 2) 0x00#8

/-- R123 b: the value of a digest does not depend on anything that happened before its INITV. -/
def Obligations.DigestForgetsThePast : Prop :=
  ∀ (v : Variant) (m : List Byte) (s s' : State),
    NextWith (execAll (digestCommands v m) s) fun t =>
      NextWith (execAll (digestCommands v m) s') fun t' =>
        t.sent.drop s.sent.length = t'.sent.drop s'.sent.length ∧ t.lanes = t'.lanes ∧ t.rate = t'.rate ∧
        t.offset = t'.offset ∧ t.delimiter = t'.delimiter ∧ t.phase = t'.phase

/-- R155: every pairing of the four rows emits a single output block: INITV and the ABSORBs of `n` bytes permute
`n div CFG[v].rate` times, and FINALV then emits `CFG[w].outlen` bytes with exactly one permutation. -/
def Obligations.EveryRowPairingIsOneBlock : Prop :=
  ∀ (v w : Variant) (m : List Byte) (s : State),
    NextWith (execAll (.initv v :: updateCommands m) s) fun t =>
      t.permLog.length = s.permLog.length + m.length / cfgRate v ∧
      NextWith (exec (.finalv w) t) fun u =>
        (bytesOf (u.sent.drop t.sent.length)).length = cfgOutlen w ∧ u.permLog.length = t.permLog.length + 1

/-! ## Errors and statuses (spec/60_exceptions.md, spec/30_encoding.md R60, R66) -/

/-- R134: a word whose status is not OK writes no register and emits no byte: its status is all that happens. -/
def Obligations.ErrorsChangeNothing : Prop :=
  ∀ (W : CmdWord) (s t : State) (bs : List Byte) (w : StatusWord),
    present (.c W) s = .next t → t.sent = s.sent ++ bs.map .o ++ [.s w] → w ≠ 0x00#8 →
    bs = [] ∧ t = { s with sent := s.sent ++ [.s w] }

/-- R60, R66: every word on port C is answered with zero or more bytes and then exactly one status, one of the four; the
bytes are exactly as many as FINALIZE asks for or FINALV's row gives when the status is OK, and none otherwise; a
request on port P has no status. -/
def Obligations.OneResponsePerTransaction : Prop :=
  (∀ (W : CmdWord) (s : State), s.ContextInv →
    NextWith (present (.c W) s) fun t =>
      ∃ (bs : List Byte) (w : StatusWord), t.sent = s.sent ++ bs.map .o ++ [.s w] ∧
        (w = 0x00#8 ∨ w = 0x01#8 ∨ w = 0x02#8 ∨ w = 0x03#8) ∧ (w ≠ 0x00#8 → bs = []) ∧
        (w = 0x00#8 → ∃ i, decode (.c W) = .ok i ∧
          bs.length = match i with | .finalize n => n | .finalv v => cfgOutlen v | _ => 0)) ∧
  (∀ (S : PermVec) (s : State), NextWith (present (.p S) s) fun t => t.sent = s.sent)

/-- R66, U5: no step ever puts a status other than the four on port S. -/
def Obligations.StepKeepsStatusesKnown : Prop :=
  ∀ s t : State, s.StatusesKnown → step s = .next t → t.StatusesKnown

/-! ## The whole machine -/

/-- R49, R60 (tier 1): presented a transaction that decodes, a step is `exec` of the instruction, with the transaction
taken off the pending inputs; with nothing presented the state stays (log entry 3). -/
def Obligations.StepRunsTheDecodedInstruction : Prop :=
  (∀ (s : State) (tr : Transaction) (rest : List HostInput) (i : Instr),
    s.inputs = .present tr :: rest → decode tr = .ok i → step s = exec i { s with inputs := rest }) ∧
  (∀ s : State, s.inputs = [] → step s = .next s)

/-- R49, R69: instructions presented one after the other are executed in that order, each to completion before the next;
so what the statements say of `execAll` they say of steps. -/
def Obligations.PresentedSequenceRunsInOrder : Prop :=
  ∀ (is : List Instr) (s : State), (∀ i ∈ is, i.wellFormed = true) →
    Host.Core.run Sys2Proof.core is.length ({ s with inputs := presentAll is } : State) =
      execAll is { s with inputs := [] }

/-- R160: presented any words at all, the machine takes them all, and the observable result has one entry per word. -/
def Obligations.RunGivesOneResponsePerWord : Prop :=
  ∀ (words : List CmdWord) (s : State), s.ContextInv → s.sent = [] →
    s.inputs = words.map (fun W => .present (.c W)) →
    ∃ t : State, Host.Core.run Sys2Proof.core words.length s = .next t ∧ t.inputs = [] ∧
      (observed t).length = words.length

/-- Frame of every instruction: it never touches what the host still presents, only appends to what has been sent and to
port P's traffic (R49, R47). Nor does it touch `draws`, a field that is the model's choice (log entry 2). -/
def Obligations.InstructionsOnlyAppendOutputs : Prop :=
  ∀ (i : Instr) (s t : State), exec i s = .next t →
    t.inputs = s.inputs ∧ t.draws = s.draws ∧ (∃ out, t.sent = s.sent ++ out) ∧
    (∃ calls, t.permLog = s.permLog ++ calls)

/-- R22, R24: only INIT and INITV write `rate` and `delimiter`. -/
def Obligations.OnlyInitWritesRateAndDelimiter : Prop :=
  ∀ (i : Instr) (s t : State), exec i s = .next t → (∀ r d, i ≠ .init r d) → (∀ v, i ≠ .initv v) →
    t.rate = s.rate ∧ t.delimiter = s.delimiter

/-- R24: the delimiter is read only by FINALIZE and FINALV: on any other instruction two states that differ in it alone
give states that differ in it at most. -/
def Obligations.DelimiterIsReadOnlyByFinalize : Prop :=
  ∀ (i : Instr) (s t : State) (d : Byte), (∀ n, i ≠ .finalize n) → (∀ v, i ≠ .finalv v) → exec i s = .next t →
    NextWith (exec i { s with delimiter := d }) fun u => { u with delimiter := t.delimiter } = t

/-- R25, R150: the lifecycle. A step changes `phase` only to ABSORBING, by INIT or INITV, from ABSORBING to FINALIZED, by
FINALIZE or FINALV, or to IDLE, by reset. -/
def Obligations.PhaseFollowsTheLifecycle : Prop :=
  ∀ s t : State, step s = .next t →
    t.phase = s.phase ∨
    (t.phase = .absorbing ∧ ∃ W i rest, s.inputs = .present (.c W) :: rest ∧ decode (.c W) = .ok i ∧
      ((∃ r d, i = .init r d) ∨ (∃ v, i = .initv v))) ∨
    (s.phase = .absorbing ∧ t.phase = .finalized ∧ ∃ W i rest, s.inputs = .present (.c W) :: rest ∧
      decode (.c W) = .ok i ∧ ((∃ n, i = .finalize n) ∨ (∃ v, i = .finalv v))) ∨
    (t.phase = .idle ∧ ((∃ rest, s.inputs = .rst :: rest) ∨ (∃ W n rest, s.inputs = .rstDuring W n :: rest)))

/-- R26 a, b: every step keeps the invariant of a context. -/
def Obligations.StepKeepsContextInvariant : Prop :=
  ∀ s t : State, s.ContextInv → step s = .next t → t.ContextInv

/-- R140: no failure mode exists beyond the statuses: from every state that meets the invariant a step answers a next
state, never a fault and never a refusal. -/
def Obligations.StepNeverStops : Prop :=
  ∀ s : State, s.ContextInv → NextWith (step s) State.ContextInv

/-- R88, R89: every response port P ever gives is the permutation of its request. Each call that ABSORB, FINALIZE or FINALV
makes has as request the lanes at that moment, beginning with the lanes after the XORs, and its response replaces them;
INIT and INITV make none and KECCAKF the one it is. That KECCAKF is in this log is the model's choice (log entry 5), and
so is that a reset adds no call, those of a command it abandons included (log entry 9). -/
def Obligations.StepKeepsPermLogRight : Prop :=
  (∀ s t : State, s.PermLogRight → step s = .next t → t.PermLogRight) ∧
  (∀ (i : Instr) (s t : State), exec i s = .next t →
    match i with
    | .keccakf S => ∃ R, t.permLog = s.permLog ++ [{ request := S, response := R }]
    | .init _ _ | .initv _ => t.permLog = s.permLog
    | .absorb b => CallsFrom (s.phase = .absorbing) (xorByte s.lanes s.offset.toNat b) s t
    | .finalize _ | .finalv _ => CallsFrom (s.phase = .absorbing) (pad s) s t) ∧
  (∀ (s t : State) (rest : List HostInput), (s.inputs = .rst :: rest ∨ ∃ W n, s.inputs = .rstDuring W n :: rest) →
    step s = .next t → t.permLog = s.permLog)

/-! ## Reset (spec/10_state.md R34, spec/70_reset_and_hazards.md R150) -/

/-- R34: after reset `phase` is IDLE, no byte and no status is pending, and the invariants hold. -/
def Obligations.ResetStateMeetsTheInvariants : Prop :=
  State.reset.phase = .idle ∧ State.reset.sent = [] ∧ State.reset.permLog = [] ∧ State.reset.inputs = [] ∧
  State.reset.ContextInv ∧ State.reset.StatusesKnown ∧ State.reset.PermLogRight

/-- R150: RST between commands leads to IDLE from every state, with no byte and no status produced and no permutation. -/
def Obligations.ResetEventReturnsToIdle : Prop :=
  ∀ (s : State) (rest : List HostInput), s.inputs = .rst :: rest →
    NextWith (step s) fun t =>
      t.phase = .idle ∧ t.sent = s.sent ∧ t.permLog = s.permLog ∧ t.inputs = rest

/-- R150: RST inside a command: the bytes it has already emitted stay emitted (the first `n` of those it would have
emitted), no status is delivered for it, and the state afterwards is a reset state. That such a reset is an input of the
model, and that port P's log says nothing of the abandoned command, is the model's choice (log entry 9). -/
def Obligations.ResetInsideACommandAbandonsIt : Prop :=
  ∀ (s : State) (W : CmdWord) (n : Nat) (rest : List HostInput), s.ContextInv → s.inputs = .rstDuring W n :: rest →
    NextWith (step s) fun t =>
      t.phase = .idle ∧ t.inputs = rest ∧ t.permLog = s.permLog ∧
      NextWith (present (.c W) { s with inputs := rest }) fun u =>
        ∃ (bs : List Byte) (w : StatusWord),
          u.sent = s.sent ++ bs.map .o ++ [.s w] ∧ t.sent = s.sent ++ (bs.take n).map .o

/-- R34: the registers that reset leaves unspecified cannot be observed. Two states with no context that differ in them
alone take the same step: what is sent is equal, and afterwards they are equal or again differ in them alone. -/
def Obligations.UnspecifiedRegistersAreUnobservable : Prop :=
  ∀ s s' : State, s.SameButUnspecified s' →
    NextWith (step s) fun t => NextWith (step s') fun t' => t = t' ∨ t.SameButUnspecified t'
end

