-- ==== Sys2Proof/Laws/Lanes.lean ====
section
/-!
SUPPORT. Reading lanes built by `lanesOf` and `columnsOf`, and equality of lanes from equality of positions.
-/

namespace Sys2Proof.Machine

theorem lane_index_cases (i : Nat) (h : i < 25) : ∃ x y, x < 5 ∧ y < 5 ∧ i = x + 5 * y :=
  ⟨i % 5, i / 5, by omega, by omega, by omega⟩

theorem getElem_lanesOf (f : Nat → Nat → Lane) (i : Nat) (h : i < 25) : (lanesOf f)[i] = f (i % 5) (i / 5) := by
  interval_cases i <;> rfl

@[simp] theorem laneXY_lanesOf (f : Nat → Nat → Lane) (x y : Nat) : laneXY (lanesOf f) x y = f (x % 5) (y % 5) := by
  have h : x % 5 + 5 * (y % 5) < 25 := by omega
  simp only [laneXY, getElem_lanesOf _ _ h]
  congr 1 <;> omega

theorem laneXY_eq_getElem (A : Lanes) (x y : Nat) (hx : x < 5) (hy : y < 5) :
    laneXY A x y = A[x + 5 * y]'(by omega) := by
  simp [laneXY, Nat.mod_eq_of_lt hx, Nat.mod_eq_of_lt hy]

theorem getElem_eq_laneXY (A : Lanes) (i : Nat) (h : i < 25) : A[i] = laneXY A (i % 5) (i / 5) := by
  rw [laneXY_eq_getElem _ _ _ (by omega) (by omega)]
  congr 1
  omega

/-- `laneXY` takes its indices mod 5 (R81). -/
@[simp] theorem laneXY_mod (A : Lanes) (x y : Nat) : laneXY A (x % 5) (y % 5) = laneXY A x y := by
  simp [laneXY]

@[simp] theorem laneXY_mod_left (A : Lanes) (x y : Nat) : laneXY A (x % 5) y = laneXY A x y := by
  simp [laneXY]

@[simp] theorem laneXY_mod_right (A : Lanes) (x y : Nat) : laneXY A x (y % 5) = laneXY A x y := by
  simp [laneXY]

theorem lanes_ext {A B : Lanes} (h : ∀ x y, x < 5 → y < 5 → laneXY A x y = laneXY B x y) : A = B := by
  apply Vector.ext
  intro i hi
  rw [getElem_eq_laneXY A i hi, getElem_eq_laneXY B i hi]
  exact h _ _ (by omega) (by omega)

theorem getElem_columnsOf (f : Nat → Lane) (i : Nat) (h : i < 5) : (columnsOf f)[i] = f i := by
  interval_cases i <;> rfl

@[simp] theorem columnAt_columnsOf (f : Nat → Lane) (x : Nat) : columnAt (columnsOf f) x = f (x % 5) :=
  getElem_columnsOf f (x % 5) (by omega)

theorem zeroLanes_eq_replicate : zeroLanes = Vector.replicate 25 0#64 := by
  apply Vector.ext
  intro i hi
  rw [zeroLanes, getElem_lanesOf _ _ hi, Vector.getElem_replicate]

end Sys2Proof.Machine
end

