-- ==== Sys2Proof/Laws/Bytes.lean ====
section
/-!
SUPPORT. One lemma per primitive of the state byte space (spec/20_memory.md R40 to R42): what it answers, and which bytes
it changes. The proofs go bit by bit.
-/

namespace Sys2Proof.Machine

theorem getLsbD_laneByte (lane : Lane) (j b : Nat) :
    (laneByte lane j).getLsbD b = (decide (b < 8) && lane.getLsbD (8 * j + b)) := by
  simp [laneByte]

theorem getLsbD_byteInLane (v : Byte) (j i : Nat) :
    (byteInLane v j).getLsbD i = (decide (i < 64) && decide (8 * j ≤ i) && v.getLsbD (i - 8 * j)) := by
  by_cases h1 : i < 64 <;> by_cases h2 : 8 * j ≤ i <;> simp [byteInLane, h1, h2]

theorem memRead_of_lt (A : Lanes) (k : Nat) (h : k < 200) :
    memRead A k = .ok (laneByte (A[k / 8]'(by omega)) (k % 8)) := by simp [memRead, h]

theorem memRead_of_ge (A : Lanes) (k : Nat) (h : 200 ≤ k) : memRead A k = .error (.noSuchStateByte k) := by
  simp [memRead, Nat.not_lt.mpr h]

theorem byteAt_of_lt (A : Lanes) (k : Nat) (h : k < 200) :
    byteAt A k = laneByte (A[k / 8]'(by omega)) (k % 8) := by
  rw [byteAt, memRead_of_lt A k h]
  rfl

theorem memRead_eq_byteAt (A : Lanes) (k : Nat) (h : k < 200) : memRead A k = .ok (byteAt A k) := by
  rw [memRead_of_lt A k h, byteAt_of_lt A k h]

theorem xorByte_of_lt (A : Lanes) (k : Nat) (v : Byte) (h : k < 200) :
    xorByte A k v = .ok (A.set (k / 8) (A[k / 8]'(by omega) ^^^ byteInLane v (k % 8)) (by omega)) := by
  simp [xorByte, h]

theorem xorByte_of_ge (A : Lanes) (k : Nat) (v : Byte) (h : 200 ≤ k) :
    xorByte A k v = .error (.noSuchStateByte k) := by simp [xorByte, Nat.not_lt.mpr h]

theorem memWrite_of_lt (A : Lanes) (k : Nat) (v : Byte) (h : k < 200) :
    memWrite A k v =
      .ok (A.set (k / 8) ((A[k / 8]'(by omega) &&& ~~~(byteInLane 0xFF#8 (k % 8))) ^^^ byteInLane v (k % 8)) (by omega)) := by
  simp [memWrite, h]

/-- Byte `j` of a lane after XORing `v` at byte `i` of it. -/
theorem laneByte_xor_byteInLane (lane : Lane) (v : Byte) (i j : Nat) (hi : i < 8) (hj : j < 8) :
    laneByte (lane ^^^ byteInLane v i) j = if j = i then laneByte lane j ^^^ v else laneByte lane j := by
  apply BitVec.eq_of_getLsbD_eq
  intro b hb
  split
  · subst j
    have h64 : 8 * i + b < 64 := by omega
    have hsub : 8 * i + b - 8 * i = b := by omega
    simp only [BitVec.getLsbD_xor, getLsbD_laneByte, getLsbD_byteInLane, hb, h64, hsub, decide_true, Bool.true_and,
      Nat.le_add_right]
  · rename_i hne
    simp only [getLsbD_laneByte, getLsbD_byteInLane, hb, BitVec.getLsbD_xor, decide_true, Bool.true_and]
    by_cases hle : 8 * i ≤ 8 * j + b
    · have : 8 ≤ 8 * j + b - 8 * i := by omega
      simp [BitVec.getLsbD_of_ge v _ this]
    · simp [hle]

/-- The byte at every address after XorByte (R42). -/
theorem byteAt_xorByte {A B : Lanes} {k : Nat} {v : Byte} (h : xorByte A k v = .ok B) (j : Nat) (hj : j < 200) :
    byteAt B j = if j = k then byteAt A j ^^^ v else byteAt A j := by
  by_cases hk : k < 200
  · rw [xorByte_of_lt A k v hk] at h
    cases h
    rw [byteAt_of_lt _ j hj, byteAt_of_lt _ j hj, Vector.getElem_set]
    by_cases hl : k / 8 = j / 8
    · simp only [hl, if_true]
      rw [laneByte_xor_byteInLane _ _ _ _ (by omega) (by omega)]
      have : (j % 8 = k % 8) ↔ j = k := by omega
      simp [this]
    · have : j ≠ k := by omega
      simp [hl, this]
  · rw [xorByte_of_ge A k v (by omega)] at h
    cases h

theorem xorByte_ok_of_lt (A : Lanes) (k : Nat) (v : Byte) (h : k < 200) : ∃ B, xorByte A k v = .ok B :=
  ⟨_, xorByte_of_lt A k v h⟩

/-- Two states with the same 200 bytes are the same lanes: `SB` is the lanes seen as bytes (R40). -/
theorem lanes_eq_of_byteAt {A B : Lanes} (h : ∀ k, k < 200 → byteAt A k = byteAt B k) : A = B := by
  apply Vector.ext
  intro i hi
  apply BitVec.eq_of_getLsbD_eq
  intro z hz
  have hk := h (8 * i + z / 8) (by omega)
  rw [byteAt_of_lt _ _ (by omega), byteAt_of_lt _ _ (by omega)] at hk
  have hb := congrArg (fun v : Byte => v.getLsbD (z % 8)) hk
  simp only [getLsbD_laneByte] at hb
  have e1 : (8 * i + z / 8) / 8 = i := by omega
  have e2 : 8 * ((8 * i + z / 8) % 8) + z % 8 = z := by omega
  have e3 : z % 8 < 8 := by omega
  simpa only [e1, e2, e3, decide_true, Bool.true_and] using hb

/-- The bytes of the XOR of two states are the XORs of their bytes (R105). -/
theorem byteAt_xorLanes (A B : Lanes) (k : Nat) (h : k < 200) :
    byteAt (xorLanes A B) k = byteAt A k ^^^ byteAt B k := by
  have hl : (xorLanes A B)[k / 8]'(by omega) = A[k / 8]'(by omega) ^^^ B[k / 8]'(by omega) := by
    rw [xorLanes, getElem_lanesOf _ _ (by omega), getElem_eq_laneXY, getElem_eq_laneXY]
  rw [byteAt_of_lt _ _ h, byteAt_of_lt _ _ h, byteAt_of_lt _ _ h, hl]
  apply BitVec.eq_of_getLsbD_eq
  intro b hb
  simp only [getLsbD_laneByte, hb, BitVec.getLsbD_xor, decide_true, Bool.true_and]

/-- A byte put into a lane of zeros is that lane's byte there, and the others are 0. -/
theorem laneByte_byteInLane (v : Byte) (i j : Nat) (hi : i < 8) (hj : j < 8) :
    laneByte (byteInLane v i) j = if j = i then v else 0#8 := by
  have hz : laneByte (0#64) j = 0#8 := by simp [laneByte]
  have h := laneByte_xor_byteInLane 0#64 v i j hi hj
  rw [BitVec.zero_xor, hz] at h
  rw [h]
  simp

/-- The bytes of lanes built from bytes (R40). -/
theorem byteAt_lanesOfBytes (f : Nat → Byte) (k : Nat) (h : k < 200) : byteAt (lanesOfBytes f) k = f k := by
  rw [byteAt_of_lt _ _ h, lanesOfBytes, getElem_lanesOf _ _ (by omega)]
  have hm : k % 8 < 8 := by omega
  have hk : f k = f (8 * (k / 8 % 5 + 5 * (k / 8 / 5)) + k % 8) := by
    congr 1
    omega
  rw [hk]
  generalize k / 8 % 5 + 5 * (k / 8 / 5) = w
  generalize k % 8 = j at *
  simp only [show List.range 8 = [0, 1, 2, 3, 4, 5, 6, 7] from rfl, List.foldl]
  interval_cases j <;> simp [laneByte_xor_byteInLane, laneByte_byteInLane]

/-- Reading a block inside the space answers its bytes in order (R45). -/
theorem readBlock_eq (A : Lanes) (n : Nat) : ∀ k, k + n ≤ 200 →
    readBlock A k n = .ok ((List.range' k n).map (byteAt A)) := by
  induction n with
  | zero => intro k _; rfl
  | succ n ih =>
    intro k hk
    simp [readBlock, memRead_eq_byteAt A k (by omega), ih (k + 1) (by omega), List.range'_succ]

end Sys2Proof.Machine
end

