-- ==== Sys2Proof/Laws/Events.lean ====
section
/-!
SUPPORT. The bytes and the statuses among port events (spec/20_memory.md R47, spec/30_encoding.md R66).
-/

namespace Sys2Proof.Machine

@[simp] theorem bytesOf_append (a b : List PortEvent) : bytesOf (a ++ b) = bytesOf a ++ bytesOf b := by
  simp [bytesOf]

@[simp] theorem bytesOf_bytes (bs : List Byte) : bytesOf (bs.map .o) = bs := by
  induction bs with
  | nil => rfl
  | cons b bs ih => exact congrArg (b :: ·) ih

@[simp] theorem bytesOf_status (w : StatusWord) : bytesOf [.s w] = [] := rfl

@[simp] theorem statusesOf_append (a b : List PortEvent) : statusesOf (a ++ b) = statusesOf a ++ statusesOf b := by
  simp [statusesOf]

@[simp] theorem statusesOf_bytes (bs : List Byte) : statusesOf (bs.map .o) = [] := by
  induction bs with
  | nil => rfl
  | cons b bs ih => exact ih

@[simp] theorem statusesOf_status (w : StatusWord) : statusesOf [.s w] = [w] := rfl

end Sys2Proof.Machine
end

