-- ==== Sys2Proof/Laws/PerInstr.lean ====
section
/-!
SUPPORT. The per-instruction family `TableMatch`: the encoding of every well-formed instruction has its row's opcode bits
(spec/30_encoding.md R64: "A word `W` is the instruction of a row when `(W and mask) = match`").
-/

namespace Sys2Proof.Laws

/-- The `mask` and `match` of an instruction's row in the opcode table (R64); port P has none. -/
def TableMatch.row : Instr → Option (CmdWord × CmdWord)
  | .keccakf _ => none
  | .init _ _ => some (0xFFFF0000#32, 0x01000000#32)
  | .absorb _ => some (0xFFFFFF00#32, 0x02000000#32)
  | .finalize _ => some (0xFF000000#32, 0x03000000#32)
  | .initv _ => some (0xFFFFFFFC#32, 0x04000000#32)
  | .finalv _ => some (0xFFFFFFFC#32, 0x05000000#32)

/-- A well-formed instruction is encoded on the port of its row, with the row's opcode bits. -/
def TableMatch.Statement (i : Instr) : Prop :=
  i.wellFormed = true →
    match TableMatch.row i, encode i with
    | none, .p _ => True
    | some (mask, pattern), .c W => W &&& mask = pattern
    | _, _ => False

/-- Adding an operand below `2 ^ k` to a multiple of `2 ^ k` leaves the bits from `k` on alone. -/
theorem TableMatch.mask_of_add (op n k : Nat) (hn : n < 2 ^ k) (ho : 2 ^ k ∣ op) :
    BitVec.ofNat 32 (op + n) &&& ~~~(BitVec.ofNat 32 (2 ^ k - 1)) = BitVec.ofNat 32 op := by
  obtain ⟨q, rfl⟩ := ho
  apply BitVec.eq_of_getLsbD_eq
  intro i hi
  simp only [BitVec.getLsbD_and, BitVec.getLsbD_not, BitVec.getLsbD_ofNat, hi, decide_true, Bool.true_and,
    Nat.testBit_two_pow_sub_one, Nat.testBit_two_pow_mul_add _ hn, Nat.testBit_two_pow_mul]
  by_cases h : i < k
  · simp [h]
  · simp [h, Nat.not_lt.mp h]

theorem TableMatch.keccakf (S : PermVec) : TableMatch.Statement (.keccakf S) := fun _ => trivial

theorem TableMatch.init (rate : Nat) (delim : Byte) : TableMatch.Statement (.init rate delim) := by
  intro h
  have hr : rate < 256 := by simpa [Instr.wellFormed] using h
  have hd := delim.isLt
  have := mask_of_add 0x01000000 (256 * rate + delim.toNat) 16 (by omega) ⟨256, rfl⟩
  rwa [← Nat.add_assoc] at this

theorem TableMatch.absorb (byte : Byte) : TableMatch.Statement (.absorb byte) :=
  fun _ => mask_of_add 0x02000000 byte.toNat 8 byte.isLt ⟨131072, rfl⟩

theorem TableMatch.finalize (outlen : Nat) : TableMatch.Statement (.finalize outlen) := by
  intro h
  have hn : outlen < 2 ^ 24 := by simpa [Instr.wellFormed] using h
  exact mask_of_add 0x03000000 outlen 24 hn ⟨3, rfl⟩

theorem TableMatch.initv (v : Variant) : TableMatch.Statement (.initv v) :=
  fun _ => mask_of_add 0x04000000 (variantNumber v) 2 (by cases v <;> decide) ⟨16777216, rfl⟩

theorem TableMatch.finalv (v : Variant) : TableMatch.Statement (.finalv v) :=
  fun _ => mask_of_add 0x05000000 (variantNumber v) 2 (by cases v <;> decide) ⟨20971520, rfl⟩

end Sys2Proof.Laws
end

