-- ==== Sys2Proof/Laws/State.lean ====
section
/-!
SUPPORT. What each named update of the state does to each field, so that no later proof unfolds a record update.
-/

namespace Sys2Proof.Machine

/-! `emit` -/

@[simp] theorem emit_lanes (bs : List Byte) (s : State) : (emit bs s).lanes = s.lanes := rfl
@[simp] theorem emit_rate (bs : List Byte) (s : State) : (emit bs s).rate = s.rate := rfl
@[simp] theorem emit_offset (bs : List Byte) (s : State) : (emit bs s).offset = s.offset := rfl
@[simp] theorem emit_delimiter (bs : List Byte) (s : State) : (emit bs s).delimiter = s.delimiter := rfl
@[simp] theorem emit_phase (bs : List Byte) (s : State) : (emit bs s).phase = s.phase := rfl
@[simp] theorem emit_inputs (bs : List Byte) (s : State) : (emit bs s).inputs = s.inputs := rfl
@[simp] theorem emit_sent (bs : List Byte) (s : State) : (emit bs s).sent = s.sent ++ bs.map .o := rfl
@[simp] theorem emit_permLog (bs : List Byte) (s : State) : (emit bs s).permLog = s.permLog := rfl
@[simp] theorem emit_draws (bs : List Byte) (s : State) : (emit bs s).draws = s.draws := rfl

/-! `deliver` -/

@[simp] theorem deliver_lanes (w : StatusWord) (s : State) : (deliver w s).lanes = s.lanes := rfl
@[simp] theorem deliver_rate (w : StatusWord) (s : State) : (deliver w s).rate = s.rate := rfl
@[simp] theorem deliver_offset (w : StatusWord) (s : State) : (deliver w s).offset = s.offset := rfl
@[simp] theorem deliver_delimiter (w : StatusWord) (s : State) : (deliver w s).delimiter = s.delimiter := rfl
@[simp] theorem deliver_phase (w : StatusWord) (s : State) : (deliver w s).phase = s.phase := rfl
@[simp] theorem deliver_inputs (w : StatusWord) (s : State) : (deliver w s).inputs = s.inputs := rfl
@[simp] theorem deliver_sent (w : StatusWord) (s : State) : (deliver w s).sent = s.sent ++ [.s w] := rfl
@[simp] theorem deliver_permLog (w : StatusWord) (s : State) : (deliver w s).permLog = s.permLog := rfl
@[simp] theorem deliver_draws (w : StatusWord) (s : State) : (deliver w s).draws = s.draws := rfl

/-! `setLanes` -/

@[simp] theorem setLanes_lanes (A : Lanes) (s : State) : (setLanes A s).lanes = A := rfl
@[simp] theorem setLanes_rate (A : Lanes) (s : State) : (setLanes A s).rate = s.rate := rfl
@[simp] theorem setLanes_offset (A : Lanes) (s : State) : (setLanes A s).offset = s.offset := rfl
@[simp] theorem setLanes_delimiter (A : Lanes) (s : State) : (setLanes A s).delimiter = s.delimiter := rfl
@[simp] theorem setLanes_phase (A : Lanes) (s : State) : (setLanes A s).phase = s.phase := rfl
@[simp] theorem setLanes_inputs (A : Lanes) (s : State) : (setLanes A s).inputs = s.inputs := rfl
@[simp] theorem setLanes_sent (A : Lanes) (s : State) : (setLanes A s).sent = s.sent := rfl
@[simp] theorem setLanes_permLog (A : Lanes) (s : State) : (setLanes A s).permLog = s.permLog := rfl
@[simp] theorem setLanes_draws (A : Lanes) (s : State) : (setLanes A s).draws = s.draws := rfl

/-! `permute` -/

@[simp] theorem permute_lanes (s : State) : (permute s).lanes = keccakF s.lanes := rfl
@[simp] theorem permute_rate (s : State) : (permute s).rate = s.rate := rfl
@[simp] theorem permute_offset (s : State) : (permute s).offset = s.offset := rfl
@[simp] theorem permute_delimiter (s : State) : (permute s).delimiter = s.delimiter := rfl
@[simp] theorem permute_phase (s : State) : (permute s).phase = s.phase := rfl
@[simp] theorem permute_inputs (s : State) : (permute s).inputs = s.inputs := rfl
@[simp] theorem permute_sent (s : State) : (permute s).sent = s.sent := rfl
@[simp] theorem permute_permLog (s : State) :
    (permute s).permLog = s.permLog ++ [{ request := packLanes s.lanes, response := packLanes (keccakF s.lanes) }] := rfl
@[simp] theorem permute_draws (s : State) : (permute s).draws = s.draws := rfl

/-! `openContext` -/

@[simp] theorem openContext_lanes (rate : Nat) (delim : Byte) (s : State) :
    (openContext rate delim s).lanes = zeroLanes := rfl
@[simp] theorem openContext_rate (rate : Nat) (delim : Byte) (s : State) :
    (openContext rate delim s).rate = BitVec.ofNat 8 rate := rfl
@[simp] theorem openContext_offset (rate : Nat) (delim : Byte) (s : State) :
    (openContext rate delim s).offset = 0#8 := rfl
@[simp] theorem openContext_delimiter (rate : Nat) (delim : Byte) (s : State) :
    (openContext rate delim s).delimiter = delim := rfl
@[simp] theorem openContext_phase (rate : Nat) (delim : Byte) (s : State) :
    (openContext rate delim s).phase = .absorbing := rfl
@[simp] theorem openContext_inputs (rate : Nat) (delim : Byte) (s : State) :
    (openContext rate delim s).inputs = s.inputs := rfl
@[simp] theorem openContext_sent (rate : Nat) (delim : Byte) (s : State) :
    (openContext rate delim s).sent = s.sent := rfl
@[simp] theorem openContext_permLog (rate : Nat) (delim : Byte) (s : State) :
    (openContext rate delim s).permLog = s.permLog := rfl
@[simp] theorem openContext_draws (rate : Nat) (delim : Byte) (s : State) :
    (openContext rate delim s).draws = s.draws := rfl

/-! `resetEvent` -/

@[simp] theorem resetEvent_lanes (s : State) : (resetEvent s).lanes = Config.resetLanes s.draws := rfl
@[simp] theorem resetEvent_rate (s : State) : (resetEvent s).rate = Config.resetRate s.draws := rfl
@[simp] theorem resetEvent_offset (s : State) : (resetEvent s).offset = Config.resetOffset s.draws := rfl
@[simp] theorem resetEvent_delimiter (s : State) : (resetEvent s).delimiter = Config.resetDelimiter s.draws := rfl
@[simp] theorem resetEvent_phase (s : State) : (resetEvent s).phase = .idle := rfl
@[simp] theorem resetEvent_inputs (s : State) : (resetEvent s).inputs = s.inputs := rfl
@[simp] theorem resetEvent_sent (s : State) : (resetEvent s).sent = s.sent := rfl
@[simp] theorem resetEvent_permLog (s : State) : (resetEvent s).permLog = s.permLog := rfl
@[simp] theorem resetEvent_draws (s : State) : (resetEvent s).draws = s.draws + 1 := rfl

end Sys2Proof.Machine
end

