-- ==== Sys2Proof/Laws/Sponge.lean ====
section
/-!
SUPPORT. What each shared operation can do, said once: if it answers, then one of these cases holds. The statements cite
these lemmas instead of unfolding the operations.
-/

namespace Sys2Proof.Machine

/-- INIT and INITV (R100): a fresh context with OK, or INVALID_RATE and nothing else. -/
theorem initContext_cases {rate : Nat} {delim : Byte} {s t : State} (h : initContext rate delim s = .next t) :
    ((1 ≤ rate ∧ rate ≤ 199) ∧ t = deliver statusOk (openContext rate delim s)) ∨
    ((rate = 0 ∨ 200 ≤ rate) ∧ t = deliver (errorCode .invalidRate) s) := by
  by_cases hr : 1 ≤ rate ∧ rate < 200
  · have : initContext rate delim s = done (openContext rate delim s) := by
      simp [initContext, rateLegal, rateMin, stateBytes, hr]
    rw [this] at h
    cases h
    exact .inl ⟨⟨hr.1, by omega⟩, rfl⟩
  · have : initContext rate delim s = raise .invalidRate s := by
      simp [initContext, rateLegal, rateMin, stateBytes, hr]
    rw [this] at h
    cases h
    exact .inr ⟨by omega, rfl⟩

/-- ABSORB (R101): MISUSE and nothing else, or the byte at `offset` is XORed and `offset` moves on. -/
theorem execAbsorb_cases {b : Byte} {s t : State} (h : execAbsorb b s = .next t) :
    (s.phase ≠ .absorbing ∧ t = deliver (errorCode .misuse) s) ∨
    (s.phase = .absorbing ∧ ∃ A, xorByte s.lanes s.offset.toNat b = .ok A ∧
      t = deliver statusOk (advanceOffset (setLanes A s))) := by
  simp only [execAbsorb] at h
  split at h
  · rename_i hp
    cases hx : xorByte s.lanes (offsetAddress s) b with
    | error f => simp [hx] at h
    | ok A =>
      simp only [hx] at h
      cases h
      exact .inr ⟨hp, A, hx, rfl⟩
  · rename_i hp
    cases h
    exact .inl ⟨hp, rfl⟩

/-- ABSORB's end (R101): the window is full and the lanes are permuted, or `offset` grows by one. -/
theorem advanceOffset_cases (s : State) :
    (s.offset.toNat + 1 = s.rate.toNat ∧ advanceOffset s = { permute s with offset := 0#8 }) ∨
    (s.offset.toNat + 1 ≠ s.rate.toNat ∧ advanceOffset s = { s with offset := s.offset + 1#8 }) := by
  simp only [advanceOffset, windowFull, decide_eq_true_eq]
  split <;> rename_i h
  · exact .inl ⟨h, rfl⟩
  · exact .inr ⟨h, rfl⟩

/-- Pad (R103) is two XORs one after the other. -/
theorem pad_cases {s : State} {A : Lanes} (h : pad s = .ok A) :
    s.rate.toNat ≠ 0 ∧ ∃ B, xorByte s.lanes s.offset.toNat s.delimiter = .ok B ∧
      xorByte B (s.rate.toNat - 1) 0x80#8 = .ok A := by
  simp only [pad, lastByteAddress] at h
  by_cases hr : s.rate.toNat = 0
  · simp [hr] at h
  · simp only [hr, if_false] at h
    cases hx : xorByte s.lanes (offsetAddress s) s.delimiter with
    | error f => simp [hx] at h
    | ok B =>
      simp only [hx] at h
      exact ⟨hr, B, hx, h⟩

/-- FINALIZE and FINALV (R102): MISUSE and nothing else, or pad, permute, squeeze, FINALIZED and OK. -/
theorem finalizeContext_cases {outlen : Nat} {s t : State} (h : finalizeContext outlen s = .next t) :
    (s.phase ≠ .absorbing ∧ t = deliver (errorCode .misuse) s) ∨
    (s.phase = .absorbing ∧ ∃ A u, pad s = .ok A ∧ squeeze outlen outlen (permute (setLanes A s)) = .ok u ∧
      t = deliver statusOk { u with phase := .finalized }) := by
  simp only [finalizeContext] at h
  split at h
  · rename_i hp
    cases hx : pad s with
    | error f => simp [hx] at h
    | ok A =>
      cases hq : squeeze outlen outlen (permute (setLanes A s)) with
      | error f => simp [hx, hq] at h
      | ok u =>
        simp only [hx, hq] at h
        cases h
        exact .inr ⟨hp, A, u, rfl, hq, rfl⟩
  · rename_i hp
    cases h
    exact .inl ⟨hp, rfl⟩

/-- One block of Squeeze at a legal rate (R104): nothing more to emit, a last block, or a block and a permutation. -/
theorem squeeze_succ (fuel rem : Nat) (s : State) (hr : s.rate.toNat ≤ 200) :
    squeeze (fuel + 1) rem s =
      if rem = 0 then .ok s
      else if rem ≤ s.rate.toNat then .ok (emit ((List.range rem).map (byteAt s.lanes)) s)
      else squeeze fuel (rem - s.rate.toNat)
        (permute (emit ((List.range s.rate.toNat).map (byteAt s.lanes)) s)) := by
  have hb := readBlock_eq s.lanes (min rem s.rate.toNat) 0 (by omega)
  simp only [squeeze, hb, ← List.range_eq_range']
  by_cases h0 : rem = 0
  · simp [h0]
  · by_cases hle : rem ≤ s.rate.toNat
    · simp [h0, hle]
    · have h1 : min rem s.rate.toNat = s.rate.toNat := by omega
      have h2 : rem - s.rate.toNat ≠ 0 := by omega
      simp [h0, hle, h1, h2]

/-- What Squeeze leaves alone, and that it only appends bytes and port P traffic (R104). -/
theorem squeeze_frame (fuel : Nat) : ∀ (rem : Nat) (s t : State), squeeze fuel rem s = .ok t →
    t.rate = s.rate ∧ t.offset = s.offset ∧ t.delimiter = s.delimiter ∧ t.phase = s.phase ∧ t.inputs = s.inputs ∧
    t.draws = s.draws ∧ (∃ bs : List Byte, t.sent = s.sent ++ bs.map .o) ∧
    (∃ calls, t.permLog = s.permLog ++ calls) := by
  induction fuel with
  | zero =>
    intro rem s t h
    simp only [squeeze] at h
    split at h
    · cases h
      exact ⟨rfl, rfl, rfl, rfl, rfl, rfl, ⟨[], by simp⟩, ⟨[], by simp⟩⟩
    · cases h
  | succ fuel ih =>
    intro rem s t h
    simp only [squeeze] at h
    split at h
    · cases h
      exact ⟨rfl, rfl, rfl, rfl, rfl, rfl, ⟨[], by simp⟩, ⟨[], by simp⟩⟩
    · split at h
      · cases h
      · rename_i bs _
        split at h
        · cases h
          exact ⟨rfl, rfl, rfl, rfl, rfl, rfl, ⟨bs, rfl⟩, ⟨[], by simp⟩⟩
        · obtain ⟨h1, h2, h3, h4, h5, h6, ⟨bs', h7⟩, calls, h8⟩ := ih _ _ _ h
          refine ⟨h1, h2, h3, h4, h5, h6, ⟨bs ++ bs', ?_⟩, ?_⟩
          · simp [h7]
          · exact ⟨_, by rw [h8, permute_permLog, emit_permLog, List.append_assoc]⟩

/-- Permuting first, then `n` times more (R104). -/
theorem keccakTimes_keccakF (n : Nat) (A : Lanes) : keccakTimes n (keccakF A) = keccakTimes (n + 1) A := by
  induction n with
  | zero => rfl
  | succ n ih => simp only [keccakTimes, ih]

/-- The calls of `n + 1` permutations are the first one and then those of `n` from its response (R89). -/
theorem permCalls_cons (A : Lanes) (n : Nat) :
    [({ request := packLanes A, response := packLanes (keccakF A) } : PermCall)] ++ permCalls (keccakF A) n =
      permCalls A (n + 1) := by
  simp only [permCalls, List.range_succ_eq_map (n := n), List.map_cons, List.map_map, keccakTimes_keccakF]
  rfl

/-- All that Squeeze does at a legal rate (R104): output byte `j` is the byte at `j mod r` after `j div r` permutations, and
there is one permutation less than there are blocks. -/
theorem squeeze_eq (r : Nat) (hr1 : 1 ≤ r) (hr2 : r ≤ 200) : ∀ (fuel rem : Nat) (s : State),
    s.rate.toNat = r → rem ≤ fuel →
    squeeze fuel rem s = .ok
      { s with
        lanes := keccakTimes ((rem + r - 1) / r - 1) s.lanes
        permLog := s.permLog ++ permCalls s.lanes ((rem + r - 1) / r - 1)
        sent := s.sent ++ ((List.range rem).map fun j => byteAt (keccakTimes (j / r) s.lanes) (j % r)).map .o } := by
  intro fuel
  induction fuel with
  | zero =>
    intro rem s hs hrem
    have : rem = 0 := by omega
    subst this
    have : (0 + r - 1) / r - 1 = 0 := by rw [Nat.div_eq_of_lt (by omega)]
    rw [this]
    simp [squeeze, keccakTimes, permCalls]
  | succ fuel ih =>
    intro rem s hs hrem
    rw [squeeze_succ _ _ _ (by omega), hs]
    by_cases h0 : rem = 0
    · subst h0
      have : (0 + r - 1) / r - 1 = 0 := by rw [Nat.div_eq_of_lt (by omega)]
      rw [this]
      simp [keccakTimes, permCalls]
    · by_cases hle : rem ≤ r
      · have : (rem + r - 1) / r - 1 = 0 := by
          have : (rem + r - 1) / r < 2 := by rw [Nat.div_lt_iff_lt_mul (by omega)]; omega
          omega
        rw [this]
        simp only [h0, hle, if_true, if_false, emit, keccakTimes, permCalls]
        have : (List.range rem).map (byteAt s.lanes) = (List.range rem).map fun j => byteAt (keccakTimes (j / r) s.lanes) (j % r) := by
          apply List.map_congr_left
          intro j hj
          rw [List.mem_range] at hj
          rw [Nat.div_eq_of_lt (by omega), Nat.mod_eq_of_lt (by omega)]; rfl
        rw [this]; simp
      · simp only [h0, hle, if_false]
        have hn : (rem + r - 1) / r - 1 = ((rem - r + r - 1) / r - 1) + 1 := by
          have e : rem + r - 1 = (rem - r + r - 1) + r := by omega
          rw [e, Nat.add_div_right _ (by omega)]
          have : 1 ≤ (rem - r + r - 1) / r := by rw [Nat.le_div_iff_mul_le (by omega)]; omega
          omega
        rw [ih _ _ (by simp [hs]) (by omega)]
        refine congrArg Except.ok ?_
        have hb : (List.range r).map (byteAt s.lanes) ++ ((List.range (rem - r)).map fun j => byteAt (keccakTimes (j / r + 1) s.lanes) (j % r)) = (List.range rem).map fun j => byteAt (keccakTimes (j / r) s.lanes) (j % r) := by
          have : rem = r + (rem - r) := by omega
          conv_rhs => rw [this, List.range_add, List.map_append, List.map_map]
          congr 1
          · apply List.map_congr_left
            intro j hj
            rw [List.mem_range] at hj
            rw [Nat.div_eq_of_lt (by omega), Nat.mod_eq_of_lt (by omega)]; rfl
          · apply List.map_congr_left
            intro j hj
            simp only [Function.comp]
            rw [Nat.add_comm r j, Nat.add_div_right _ (by omega), Nat.add_mod_right]
        simp only [permute_lanes, emit_lanes, keccakTimes_keccakF, ← hn, permute_permLog, emit_permLog, permute_sent, emit_sent, List.append_assoc, ← List.map_append, hb, permCalls_cons]
        rfl

end Sys2Proof.Machine
end

