-- ==== Sys2Proof/Machine/Assembler.lean ====
section
/-!
DEFINITION. The assembler syntax of spec/30_encoding.md R68 and R69: text to instructions. Notation only, no behaviour of
the machine rests on it (spec/92_eei_decisions.md D24). Log entry 18 says what the spec's text leaves open.
-/

namespace Sys2Proof.Machine

/-- Why a text does not assemble. -/
inductive AsmError where
  /-- "An operand out of its field's range is an assembly error, not an encoding" (R68). -/
  | operandOutOfRange
  /-- The statement has none of the forms of R68 and R69. -/
  | noSuchForm
deriving DecidableEq, Repr

/-- The pieces of a line. -/
inductive Token where
  /-- A mnemonic or a name. -/
  | word (cs : List Char)
  /-- A number, decimal or hexadecimal with 0x. -/
  | number (n : Nat)
  /-- A quoted text, as its bytes (R69). -/
  | text (bs : List Byte)
  /-- The comma between operands. -/
  | comma
  /-- The end of a command: a semicolon or the end of the line (R68). -/
  | sep
  /-- Anything else. -/
  | bad
deriving DecidableEq, Repr

/-- Where the lexer stands. -/
inductive LexMode where
  | plain
  | quoted
  | comment
deriving DecidableEq, Repr

/-- The quotation mark. -/
def quoteChar : Char := Char.ofNat 34

/-- The value of a hexadecimal digit. -/
def hexDigit (c : Char) : Option Nat :=
  if 48 ≤ c.toNat ∧ c.toNat ≤ 57 then some (c.toNat - 48)
  else if 65 ≤ c.toNat ∧ c.toNat ≤ 70 then some (c.toNat - 55)
  else if 97 ≤ c.toNat ∧ c.toNat ≤ 102 then some (c.toNat - 87)
  else none

/-- The number that digits of base `base` write, most significant first. -/
def digitsValue (base acc : Nat) : List Char → Option Nat
  | [] => some acc
  | c :: cs =>
    match hexDigit c with
    | some d => if d < base then digitsValue base (base * acc + d) cs else none
    | none => none

/-- A word of the text: a number where it begins with a decimal digit, otherwise a name (R68). -/
def tokenOfWord (cs : List Char) : Token :=
  match cs with
  | '0' :: 'x' :: c :: rest =>
    match digitsValue 16 0 (c :: rest) with
    | some n => .number n
    | none => .bad
  | c :: rest =>
    if 48 ≤ c.toNat ∧ c.toNat ≤ 57 then
      match digitsValue 10 0 (c :: rest) with
      | some n => .number n
      | none => .bad
    else .word cs
  | [] => .bad

/-- The token of the characters collected so far, if there are any. -/
def flushWord (cur : List Char) : List Token := if cur = [] then [] else [tokenOfWord cur]

/-- Cut a text into tokens; `cur` is what has been collected of the present word or quoted text. One command per line, a
semicolon may separate commands, and what follows `#` on a line is a comment (R68). R69 does not say how a quoted text
could hold a quotation mark: here it cannot, since there is no escape and the next quotation mark always ends the text;
nor does it say that a text may go on over the end of a line, or what byte a character of 256 or more is: here both are
refused (DESIGN CHOICE, log entry 18). -/
def lex (mode : LexMode) (cur : List Char) : List Char → List Token
  | [] =>
    match mode with
    | .plain => flushWord cur
    | .quoted => [.bad]
    | .comment => []
  | c :: cs =>
    match mode with
    | .plain =>
      if c = '#' then flushWord cur ++ lex .comment [] cs
      else if c = ';' ∨ c = '\n' then flushWord cur ++ .sep :: lex .plain [] cs
      else if c = ',' then flushWord cur ++ .comma :: lex .plain [] cs
      else if c = quoteChar then flushWord cur ++ lex .quoted [] cs
      else if c = ' ' ∨ c = '\t' ∨ c = '\r' then flushWord cur ++ lex .plain [] cs
      else lex .plain (cur ++ [c]) cs
    | .quoted =>
      if c = quoteChar then .text (cur.map fun ch => BitVec.ofNat 8 ch.toNat) :: lex .plain [] cs
      else if c = '\n' ∨ 256 ≤ c.toNat then .bad :: lex .plain [] cs
      else lex .quoted (cur ++ [c]) cs
    | .comment => if c = '\n' then .sep :: lex .plain [] cs else lex .comment [] cs

/-- Cut a list of tokens at the ends of commands. -/
def statements (cur : List Token) : List Token → List (List Token)
  | [] => [cur]
  | .sep :: ts => cur :: statements [] ts
  | t :: ts => statements (cur ++ [t]) ts

/-- A byte operand. -/
def asmByte (n : Nat) : Except AsmError Byte :=
  if n < 256 then .ok (BitVec.ofNat 8 n) else .error .operandOutOfRange

/-- A variant operand: a number 0..3 or one of the four names (R68). -/
def asmVariant : Token → Except AsmError Variant
  | .number 0 => .ok .sha3_224
  | .number 1 => .ok .sha3_256
  | .number 2 => .ok .sha3_384
  | .number 3 => .ok .sha3_512
  | .number _ => .error .operandOutOfRange
  | .word cs =>
    if cs = ['S', 'H', 'A', '3', '_', '2', '2', '4'] then .ok .sha3_224
    else if cs = ['S', 'H', 'A', '3', '_', '2', '5', '6'] then .ok .sha3_256
    else if cs = ['S', 'H', 'A', '3', '_', '3', '8', '4'] then .ok .sha3_384
    else if cs = ['S', 'H', 'A', '3', '_', '5', '1', '2'] then .ok .sha3_512
    else .error .noSuchForm
  | _ => .error .noSuchForm

/-- An instruction whose operands must fit their fields (R64, R68). -/
def asmInstr (i : Instr) : Except AsmError (List Instr) :=
  if i.wellFormed then .ok [i] else .error .operandOutOfRange

/-- Numbers separated by commas, as bytes (R69). -/
def asmByteList : List Token → Except AsmError (List Byte)
  | [.number n] => (asmByte n).map fun b => [b]
  | .number n :: .comma :: ts =>
    match asmByte n, asmByteList ts with
    | .ok b, .ok bs => .ok (b :: bs)
    | .error e, _ => .error e
    | _, .error e => .error e
  | _ => .error .noSuchForm

/-- A message operand: nothing, a quoted text, or bytes (R69). -/
def asmMessage : List Token → Except AsmError (List Byte)
  | [] => .ok []
  | [.text bs] => .ok bs
  | ts => asmByteList ts

/-- One command or pseudo-instruction (R68, R69). KECCAKF takes the whole state, for which R68 gives no text. -/
def asmStatement : List Token → Except AsmError (List Instr)
  | [] => .ok []
  | .word mnemonic :: args =>
    if mnemonic = ['I', 'N', 'I', 'T'] then
      match args with
      | [.number rate, .comma, .number d] =>
        match asmByte d with
        | .ok delim => asmInstr (.init rate delim)
        | .error e => .error e
      | _ => .error .noSuchForm
    else if mnemonic = ['A', 'B', 'S', 'O', 'R', 'B'] then
      match args with
      | [.number n] => (asmByte n).map fun b => [.absorb b]
      | _ => .error .noSuchForm
    else if mnemonic = ['F', 'I', 'N', 'A', 'L', 'I', 'Z', 'E'] then
      match args with
      | [.number n] => asmInstr (.finalize n)
      | _ => .error .noSuchForm
    else if mnemonic = ['I', 'N', 'I', 'T', 'V'] then
      match args with
      | [t] => (asmVariant t).map fun v => [.initv v]
      | _ => .error .noSuchForm
    else if mnemonic = ['F', 'I', 'N', 'A', 'L', 'V'] then
      match args with
      | [t] => (asmVariant t).map fun v => [.finalv v]
      | _ => .error .noSuchForm
    else if mnemonic = ['U', 'P', 'D', 'A', 'T', 'E'] then
      (asmMessage args).map updateCommands
    else if mnemonic = ['D', 'I', 'G', 'E', 'S', 'T', '_', '2', '2', '4'] then
      (asmMessage args).map (digestCommands .sha3_224)
    else if mnemonic = ['D', 'I', 'G', 'E', 'S', 'T', '_', '2', '5', '6'] then
      (asmMessage args).map (digestCommands .sha3_256)
    else if mnemonic = ['D', 'I', 'G', 'E', 'S', 'T', '_', '3', '8', '4'] then
      (asmMessage args).map (digestCommands .sha3_384)
    else if mnemonic = ['D', 'I', 'G', 'E', 'S', 'T', '_', '5', '1', '2'] then
      (asmMessage args).map (digestCommands .sha3_512)
    else .error .noSuchForm
  | _ => .error .noSuchForm

/-- The statements of a text, one after the other. -/
def asmAll : List (List Token) → Except AsmError (List Instr)
  | [] => .ok []
  | t :: ts =>
    match asmStatement t, asmAll ts with
    | .ok is, .ok rest => .ok (is ++ rest)
    | .error e, _ => .error e
    | _, .error e => .error e

/-- Assemble a text (R68, R69). -/
def assemble (source : List Char) : Except AsmError (List Instr) :=
  asmAll (statements [] (lex .plain [] source))

end Sys2Proof.Machine
end

