-- ==== Sys2Proof/Tests/Slice0.lean ====
section
/-!
SUPPORT. Tests. Every expected value is taken from spec/95_test_vectors.md, spec/96_test_vectors_permutation.md or an
example printed in a rule, named in the test's docstring. The second half holds one witness for each statement that has
hypotheses.
-/

namespace Sys2Proof.Tests

open Sys2Proof.Machine

/-! ## Helpers -/

/-- A state with all lanes 0 and nothing pending. -/
def ctx (phase : Phase) (rate offset : BitVec 8) (delimiter : Byte) : State where
  lanes := zeroLanes
  rate := rate
  offset := offset
  delimiter := delimiter
  phase := phase
  inputs := []
  sent := []
  permLog := []
  draws := 0

/-- The outcome is a next state that passes the check. -/
def shows (outcome : Host.Outcome State Fault Refusal) (check : State → Bool) : Bool :=
  match outcome with
  | .next t => check t
  | _ => false

/-- The outcome is a next state. -/
def isNext (outcome : Host.Outcome State Fault Refusal) : Bool := shows outcome fun _ => true

theorem exists_of_isNext {outcome : Host.Outcome State Fault Refusal} (h : isNext outcome = true) :
    ∃ t, outcome = .next t := by
  cases outcome with
  | next t => exact ⟨t, rfl⟩
  | fault f => cases h
  | refused r => cases h

/-- All lanes 0 but one. -/
def oneLane (i : Fin 25) (v : Lane) : Lanes := zeroLanes.set i v

/-! ## Ill-formed terms are refused (R64, R68) -/

/-- INIT's rate field has 8 bits and FINALIZE's length field 24. -/
theorem test_wellFormed_smoke :
    (Instr.init 255 0x06#8).wellFormed = true ∧ (Instr.init 256 0x06#8).wellFormed = false ∧
    (Instr.finalize 16777215).wellFormed = true ∧ (Instr.finalize 16777216).wellFormed = false := by decide

/-! ## Decoding (V30, V36, R67) -/

/-- V30, V36: INIT. 0x0100C806 decodes although INIT then refuses the rate. -/
theorem test_decode_init :
    decode (.c 0x01008806#32) = .ok (.init 136 0x06#8) ∧ decode (.c 0x01004806#32) = .ok (.init 72 0x06#8) ∧
    decode (.c 0x0100C806#32) = .ok (.init 200 0x06#8) ∧ decode (.c 0x0100FFFF#32) = .ok (.init 255 0xFF#8) := by
  decide +kernel

/-- V30, V36: ABSORB. -/
theorem test_decode_absorb :
    decode (.c 0x02000061#32) = .ok (.absorb 0x61#8) ∧ decode (.c 0x020000A3#32) = .ok (.absorb 0xA3#8) := by
  decide +kernel

/-- V30, V36: FINALIZE. -/
theorem test_decode_finalize :
    decode (.c 0x03000000#32) = .ok (.finalize 0) ∧ decode (.c 0x03000020#32) = .ok (.finalize 32) ∧
    decode (.c 0x030000C8#32) = .ok (.finalize 200) ∧ decode (.c 0x03FFFFFF#32) = .ok (.finalize 16777215) := by
  decide +kernel

/-- V30, V36: INITV and FINALV. -/
theorem test_decode_variants :
    decode (.c 0x04000000#32) = .ok (.initv .sha3_224) ∧ decode (.c 0x04000002#32) = .ok (.initv .sha3_384) ∧
    decode (.c 0x04000003#32) = .ok (.initv .sha3_512) ∧ decode (.c 0x05000001#32) = .ok (.finalv .sha3_256) ∧
    decode (.c 0x05000002#32) = .ok (.finalv .sha3_384) := by decide +kernel

/-- R63, V36: on port P the request `S` with only `S[0]` set is KECCAKF of it. -/
theorem test_decode_keccakf : decode (.p 1#1600) = .ok (.keccakf 1#1600) := rfl

/-- V30: the illegal words, refused by name. -/
theorem test_decode_illegal :
    decode (.c 0x01018806#32) = .error (.mustBeZero 0x01#8) ∧ decode (.c 0x02000161#32) = .error (.mustBeZero 0x02#8) ∧
    decode (.c 0x0201FF61#32) = .error (.mustBeZero 0x02#8) ∧ decode (.c 0x04000004#32) = .error (.mustBeZero 0x04#8) ∧
    decode (.c 0x05800001#32) = .error (.mustBeZero 0x05#8) ∧ decode (.c 0x00000000#32) = .error (.reservedOpcode 0x00#8) ∧
    decode (.c 0x06000000#32) = .error (.reservedOpcode 0x06#8) ∧
    decode (.c 0xFFFFFFFF#32) = .error (.reservedOpcode 0xFF#8) := by decide +kernel

/-- R67's examples, the other way: the words the encoder gives. -/
theorem test_encode :
    encode (.init 136 0x06#8) = .c 0x01008806#32 ∧ encode (.absorb 0x61#8) = .c 0x02000061#32 ∧
    encode (.finalize 32) = .c 0x03000020#32 ∧ encode (.initv .sha3_256) = .c 0x04000001#32 ∧
    encode (.finalv .sha3_512) = .c 0x05000003#32 := by decide +kernel

/-- R68, R69: the assembler's examples, with a name, a comment, a separator and a pseudo-instruction. -/
theorem test_assemble :
    assemble "INIT 136, 0x06 ; ABSORB 0x61 # abc".toList = .ok [.init 136 0x06#8, .absorb 0x61#8] ∧
    assemble "DIGEST_256 97, 98".toList = .ok [.initv .sha3_256, .absorb 97#8, .absorb 98#8, .finalv .sha3_256] ∧
    assemble "INITV SHA3_256".toList = .ok [.initv .sha3_256] ∧
    assemble "INIT 256, 0x06".toList = .error .operandOutOfRange := by decide +kernel

/-- R69's UPDATE "text", the bytes of the text (V35), with the empty text; and the model's choice that the next quotation
mark ends a text (log entry 18), so that what follows it here is no operand. -/
theorem test_assemble_text :
    assemble "UPDATE \"ab\"; UPDATE \"\"; UPDATE \"c\"".toList = .ok [.absorb 0x61#8, .absorb 0x62#8, .absorb 0x63#8] ∧
    assemble "UPDATE \"a\"b\"".toList = .error .noSuchForm := by decide +kernel

/-! ## The constant ROMs (R29, R30) -/

/-- R29, entries of the printed table: the first, the last, the one with most bits, one with bit 63 alone high. -/
theorem test_roundConstant :
    roundConstant 0 = 0x0000000000000001#64 ∧ roundConstant 23 = 0x8000000080008008#64 ∧
    roundConstant 12 = 0x000000008000808B#64 ∧ roundConstant 17 = 0x8000000000000080#64 := by decide +kernel

/-- R29: the table of round constants is the one its generating rule gives. -/
theorem test_roundConstant_generated :
    (List.range 24).map generatedRoundConstant = (List.range 24).map roundConstant := by decide +kernel

/-- R30: the generating walk from `(1, 0)` visits the lanes of ROT with these amounts, and PILN, ROTC are the same walk. -/
theorem test_rot_generated :
    (generatedRotations 24 0 1 0).all (fun p => ROT.getD p.1 0 == p.2) = true ∧
    (generatedRotations 24 0 1 0).map Prod.snd = ROTC ∧
    ((generatedRotations 24 0 1 0).map Prod.fst).tail ++ [1] = PILN := by decide +kernel

/-! ## The permutation (V20 to V29) -/

/-- R80's examples and corner cases (V29). -/
theorem test_rotl64 :
    rotl64 0x0123456789ABCDEF#64 4 = 0x123456789ABCDEF0#64 ∧ rotl64 0x8000000000000000#64 1 = 1#64 ∧
    rotl64 1#64 63 = 0x8000000000000000#64 ∧ rotl64 0x0123456789ABCDEF#64 0 = 0x0123456789ABCDEF#64 := by decide +kernel

/-- V21 b: theta of the state whose lane 7 alone is set; the rotation by 1 wraps bit 63 into bit 0. -/
theorem test_theta_wraps :
    theta (oneLane 7 0x8000000000000001) =
      #v[0, 3, 0, 0x8000000000000001, 0, 0, 3, 0x8000000000000001, 0x8000000000000001, 0,
         0, 3, 0, 0x8000000000000001, 0, 0, 3, 0, 0x8000000000000001, 0, 0, 3, 0, 0x8000000000000001, 0] := by
  decide +kernel

/-- V22: rho+pi of the state of ones shows the whole table ROT and the whole map pi. -/
theorem test_rhoPi_of_ones :
    rhoPi (Vector.replicate 25 1) =
      #v[0x0000000000000001, 0x0000100000000000, 0x0000080000000000, 0x0000000000200000, 0x0000000000004000,
         0x0000000010000000, 0x0000000000100000, 0x0000000000000008, 0x0000200000000000, 0x2000000000000000,
         0x0000000000000002, 0x0000000000000040, 0x0000000002000000, 0x0000000000000100, 0x0000000000040000,
         0x0000000008000000, 0x0000001000000000, 0x0000000000000400, 0x0000000000008000, 0x0100000000000000,
         0x4000000000000000, 0x0080000000000000, 0x0000008000000000, 0x0000020000000000, 0x0000000000000004] := by
  decide +kernel

/-- V23: chi of five rows that exercise the wrap-around and the identity case. -/
theorem test_chi_rows :
    chi #v[0x1, 0x2, 0x4, 0x8, 0x10,
           0xFFFFFFFFFFFFFFFF, 0xFFFFFFFFFFFFFFFF, 0xFFFFFFFFFFFFFFFF, 0xFFFFFFFFFFFFFFFF, 0xFFFFFFFFFFFFFFFF,
           0xFF, 0x0F, 0xF0, 0x33, 0x55, 1, 1, 0, 0, 0, 0, 0, 1, 0, 0] =
      #v[0x5, 0xA, 0x14, 0x9, 0x12,
         0xFFFFFFFFFFFFFFFF, 0xFFFFFFFFFFFFFFFF, 0xFFFFFFFFFFFFFFFF, 0xFFFFFFFFFFFFFFFF, 0xFFFFFFFFFFFFFFFF,
         0x0F, 0x0C, 0xB4, 0x99, 0x55, 1, 1, 0, 1, 0, 1, 0, 1, 0, 0] := by decide +kernel

/-- V24: iota on the all-zero state, first and last round constant. -/
theorem test_iota :
    iota zeroLanes 0 = oneLane 0 1 ∧ iota zeroLanes 23 = oneLane 0 0x8000000080008008 := by decide +kernel

/-- V25: round 1 applied to what round 0 leaves of the all-zero state; row 0 of the result. -/
theorem test_round :
    (keccakRound (keccakRound zeroLanes 0) 1).toList.take 5 =
      [0x0000000000008083, 0x0000100000000000, 0x0000000000008000, 0x0000000000000001, 0x0000100000008000] := by
  decide +kernel

/-- V26: KECCAKF of the all-zero state, rows 0 and 4. -/
theorem test_keccakF_zero :
    let A := keccakF zeroLanes
    A.toList.take 5 = [0xF1258F7940E1DDE7, 0x84D5CCF933C0478A, 0xD598261EA65AA9EE, 0xBD1547306F80494D, 0x8B284E056253D057] ∧
    A.toList.drop 20 = [0x940C7922AE3A2614, 0x1841F924A2C509E4, 0x16F53526E70465C2, 0x75F644E97F30A13B, 0xEAF1FF7B5CECA249] := by
  decide +kernel

/-! ## Instructions, one step each -/

/-- R88: KECCAKF leaves every register and what has been sent alone, and answers the request on port P. -/
theorem test_keccakf_step :
    exec (.keccakf 1#1600) (ctx .finalized 7#8 3#8 9#8) =
      .next { ctx .finalized 7#8 3#8 9#8 with permLog := [{ request := 1#1600, response := permModule 1#1600 }] } := rfl

/-- V36, R48: `A[16] = 0x8000000000000000` alone is the vector with only bit 64*16 + 63 set. -/
theorem test_packLanes : packLanes (oneLane 16 0x8000000000000000) = BitVec.ofNat 1600 (2 ^ (64 * 16 + 63)) := by
  decide +kernel

/-- R100's example: INIT 136, 0x06 from FINALIZED; V17 d: INIT 200 changes nothing but reports INVALID_RATE. -/
theorem test_init :
    shows (exec (.init 136 0x06#8) (ctx .finalized 7#8 3#8 9#8)) (fun t =>
      t == { ctx .absorbing 136#8 0#8 0x06#8 with sent := [.s 0x00#8] }) = true ∧
    shows (exec (.init 200 0x06#8) (ctx .absorbing 7#8 3#8 9#8)) (fun t =>
      t == { ctx .absorbing 7#8 3#8 9#8 with sent := [.s 0x01#8] }) = true := by decide +kernel

/-- V17: the extreme legal rates 1 and 199 are accepted, 0 and 255 are not. -/
theorem test_init_rates :
    shows (exec (.init 1 0#8) (ctx .idle 0#8 0#8 0#8)) (fun t => t.rate == 1#8 && t.phase == .absorbing) = true ∧
    shows (exec (.init 199 0#8) (ctx .idle 0#8 0#8 0#8)) (fun t => t.rate == 199#8 && t.phase == .absorbing) = true ∧
    shows (exec (.init 0 0#8) (ctx .idle 0#8 0#8 0#8)) (fun t => t.phase == .idle && t.sent == [.s 0x01#8]) = true ∧
    shows (exec (.init 255 0#8) (ctx .idle 0#8 0#8 0#8)) (fun t => t.phase == .idle && t.sent == [.s 0x01#8]) = true := by
  decide +kernel

/-- P1, command 4: ABSORB 0x63 at offset 2 of the state where "ab" is absorbed. -/
theorem test_absorb :
    shows (exec (.absorb 0x63#8) { ctx .absorbing 136#8 2#8 0x06#8 with lanes := oneLane 0 0x6261 }) (fun t =>
      t.lanes == oneLane 0 0x636261 && t.offset == 3#8 && t.phase == .absorbing && t.sent == [.s 0x00#8]
        && t.permLog.length == 0) = true := by decide +kernel

/-- P2, command 9: ABSORB 0x68 fills a window of 8 bytes and permutes within the same command; lane 0 of the result. -/
theorem test_absorb_fills_window :
    shows (exec (.absorb 0x68#8) { ctx .absorbing 8#8 7#8 0x06#8 with lanes := oneLane 0 0x67666564636261 }) (fun t =>
      t.lanes[0] == 0xB9F52185174012C7#64 && t.offset == 0#8 && t.permLog.length == 1 && t.sent == [.s 0x00#8]) = true := by
  decide +kernel

/-- R103's example, and its cases a and c (V18): both XORs apply even at the same byte, where 0x80 and 0x80 cancel. -/
theorem test_pad :
    (pad { ctx .absorbing 136#8 3#8 0x06#8 with lanes := oneLane 0 0x636261 }).toOption =
      some ((oneLane 0 0x06636261).set 16 0x8000000000000000) ∧
    (pad (ctx .absorbing 136#8 135#8 0x06#8)).toOption = some (oneLane 16 0x8600000000000000) ∧
    (pad (ctx .absorbing 136#8 135#8 0x80#8)).toOption = some zeroLanes := by decide +kernel

/-- V17 b: INIT 1, 0x80; FINALIZE 2 pads to the all-zero state and emits e7 and 3c, with a permutation between them. -/
theorem test_finalize :
    shows (exec (.finalize 2) (ctx .absorbing 1#8 0#8 0x80#8)) (fun t =>
      t.sent == [.o 0xE7#8, .o 0x3C#8, .s 0x00#8] && t.phase == .finalized && t.permLog.length == 2) = true := by
  decide +kernel

/-- V31: FINALIZE in FINALIZED is MISUSE, emits nothing and changes nothing. -/
theorem test_finalize_misuse :
    shows (exec (.finalize 2) (ctx .finalized 1#8 0#8 0x80#8)) (fun t =>
      t == { ctx .finalized 1#8 0#8 0x80#8 with sent := [.s 0x02#8] }) = true := by decide +kernel

/-- R120's example: INITV 1. -/
theorem test_initv :
    shows (exec (.initv .sha3_256) (ctx .absorbing 7#8 3#8 9#8)) (fun t =>
      t == { ctx .absorbing 136#8 0#8 0x06#8 with sent := [.s 0x00#8] }) = true := by decide +kernel

/-- V1, which is S1, the one digest the source prints: FINALV 1 of the empty message. -/
theorem test_finalv_empty_message :
    shows (exec (.finalv .sha3_256) (ctx .absorbing 136#8 0#8 0x06#8)) (fun t =>
      bytesOf t.sent ==
        [0xa7, 0xff, 0xc6, 0xf8, 0xbf, 0x1e, 0xd7, 0x66, 0x51, 0xc1, 0x47, 0x56, 0xa0, 0x61, 0xd6, 0x62,
         0xf5, 0x80, 0xff, 0x4d, 0xe4, 0x3b, 0x49, 0xfa, 0x82, 0xd8, 0x0a, 0x4b, 0x80, 0xf8, 0x43, 0x4a]
        && statusesOf t.sent == [0x00#8]) = true := by decide +kernel

/-! ## Steps -/

/-- R34: after reset the phase is IDLE and nothing is pending or produced. -/
theorem test_reset : State.reset.phase = .idle ∧ State.reset.inputs = [] ∧ State.reset.sent = [] := ⟨rfl, rfl, rfl⟩

/-- The first instruction after reset: INITV 1 opens a context; ABSORB is MISUSE (R151). -/
theorem test_step_after_reset :
    shows (step (State.reset.withFetchWord 32 0x04000001)) (fun t =>
      t.phase == .absorbing && t.rate == 136#8 && t.inputs == [] && t.sent == [.s 0x00#8]) = true ∧
    shows (step (State.reset.withFetchWord 32 0x02000061)) (fun t => t.phase == .idle && t.sent == [.s 0x02#8]) = true := by
  decide +kernel

/-- V31: an illegal word in ABSORBING is answered with ILLEGAL_COMMAND and changes nothing. -/
theorem test_step_illegal :
    shows (step ((ctx .absorbing 136#8 3#8 0x06#8).withFetchWord 32 0xDEADBEEF)) (fun t =>
      t == { ctx .absorbing 136#8 3#8 0x06#8 with sent := [.s 0x03#8] }) = true := by decide +kernel

/-- R150: reset inside a FINALIZE after one byte: that byte stays, no status follows, the phase is IDLE. -/
theorem test_step_reset_inside :
    shows (step { ctx .absorbing 1#8 0#8 0x80#8 with inputs := [.rstDuring 0x03000002#32 1] }) (fun t =>
      t.sent == [.o 0xE7#8] && t.phase == .idle && t.inputs == []) = true := by decide +kernel

/-! ## Witnesses: concrete states and operands that meet the hypotheses of each statement that has any -/

/-- Every constructor has a well-formed instruction, at the ends of its field's range. -/
theorem witness_DecodeOfEncodeIsTheInstruction :
    ((Instr.keccakf 1#1600).wellFormed && (Instr.init 255 0xFF#8).wellFormed && (Instr.init 0 0#8).wellFormed
      && (Instr.absorb 0xFF#8).wellFormed && (Instr.finalize 16777215).wellFormed && (Instr.initv .sha3_512).wellFormed
      && (Instr.finalv .sha3_224).wellFormed) = true := by decide

theorem witness_EncodeOfDecodeIsTheTransaction :
    decode (.c 0x0100FFFF#32) = .ok (.init 255 0xFF#8) ∧ decode (.p 0#1600) = .ok (.keccakf 0#1600) := by decide +kernel

/-- One word for each of the five rows of port C, with every operand bit set. -/
theorem witness_OpcodeTableRowsReadTheirFields :
    0x0100FFFF#32 &&& 0xFFFF0000#32 = 0x01000000#32 ∧ 0x020000FF#32 &&& 0xFFFFFF00#32 = 0x02000000#32 ∧
    0x03FFFFFF#32 &&& 0xFF000000#32 = 0x03000000#32 ∧ 0x04000003#32 &&& 0xFFFFFFFC#32 = 0x04000000#32 ∧
    0x05000003#32 &&& 0xFFFFFFFC#32 = 0x05000000#32 := by decide +kernel

/-- One word for each of the cases (a) to (d) of R65, at the lowest and at the highest offending bit, a word in none of
them, and a state to which the first is presented. -/
theorem witness_IllegalWordsAreExactlyTheReservedOnes :
    0x00FFFFFF / 2 ^ 24 = 0x00 ∧ 0x06 ≤ 0x06000000 / 2 ^ 24 ∧ 0x06 ≤ 0xFFFFFFFF / 2 ^ 24 ∧
    (0x01010000 / 2 ^ 24 = 0x01 ∧ 0x01010000 / 2 ^ 16 % 2 ^ 8 ≠ 0) ∧
    (0x02000100 / 2 ^ 24 = 0x02 ∧ 0x02000100 / 2 ^ 8 % 2 ^ 16 ≠ 0) ∧
    (0x04000004 / 2 ^ 24 = 0x04 ∧ 0x04000004 / 2 ^ 2 % 2 ^ 22 ≠ 0) ∧
    (0x05800000 / 2 ^ 24 = 0x05 ∧ 0x05800000 / 2 ^ 2 % 2 ^ 22 ≠ 0) ∧
    (decode (.c 0x03FFFFFF#32)).toOption = some (.finalize 16777215) ∧
    ({ ctx .finalized 1#8 0#8 0#8 with inputs := [.present (.c 0x00FFFFFF#32)] } : State).inputs =
      .present (.c 0x00FFFFFF#32) :: [] := by decide +kernel

/-- The amounts 0 and 63, the bits 0 and 63: bit 63 goes to bit 62 under the amount 63. -/
theorem witness_RotlMovesEveryBit :
    (0 < 64 ∧ 63 < 64 ∧ 1 ≤ 63) ∧ (rotl64 0x8000000000000000#64 63).getLsbD ((63 + 63) % 64) = true := by decide +kernel

/-- The corners of the coordinates, with a column parity that is set: lane (4, 4), bit 63, next to column 3. -/
theorem witness_ThetaMixesColumnParities :
    (0 < 5 ∧ 4 < 5 ∧ 0 < 64 ∧ 63 < 64) ∧
    (laneXY (theta (oneLane 3 0x8000000000000000)) 4 4).getLsbD 63 = true := by decide +kernel

theorem witness_RhoPiRelocatesEveryLane :
    (1 < 5 ∧ 4 < 5) ∧ laneXY (rhoPi (oneLane 1 1)) 0 2 = rotl64 1 (rotAmount 1) ∧
    4 + 5 * ((2 * 1 + 3 * 4) % 5) = 4 + 5 * ((2 * 1 + 3 * 4) % 5) ∧
    (1, 1) ∈ generatedRotations 24 0 1 0 ∧ (24, 14) ∈ generatedRotations 24 0 1 0 ∧ (1 ≤ 1 ∧ 24 < 25) := by decide +kernel

/-- Lane (4, 0), whose other operands wrap around to lanes 0 and 1. -/
theorem witness_ChiUsesTheRowBeforeTheStep :
    (4 < 5 ∧ 0 < 5 ∧ 63 < 64) ∧ (laneXY (chi (oneLane 1 0x8000000000000000)) 4 0).getLsbD 63 = true := by decide +kernel

theorem witness_IotaTouchesOnlyLaneZero : 0 < 24 ∧ 23 < 24 ∧ 4 < 5 ∧ ((4, 4) : Nat × Nat) ≠ (0, 0) := by decide

/-- A request and the lanes it carries, bit by bit. -/
theorem witness_KeccakfAnswersTwentyFourRounds :
    ∀ i, (h : i < 25) → ∀ z, z < 64 → (1#1600).getLsbD (64 * i + z) = (oneLane 0 1)[i].getLsbD z := by decide +kernel

theorem witness_PortPVectorLayout : 0 < 25 ∧ 24 < 25 ∧ 63 < 64 ∧ 0 < 200 ∧ 199 < 200 := by decide

/-- The last byte, its top bit, and an XOR that reaches it. -/
theorem witness_LanesAreLittleEndianBytes :
    (199 < 200 ∧ 7 < 8 ∧ 24 < 25) ∧
    (xorByte zeroLanes 199 0x80#8).toOption = some (oneLane 24 0x8000000000000000) := by decide +kernel

/-- The first and the last byte, and another address beside each. -/
theorem witness_XorByteAndMemWriteTouchOneByte : 0 < 200 ∧ 199 < 200 ∧ (198 ≠ 199) ∧ (200 ≠ 199) := by decide

theorem witness_NoByteBeyondTheState : 200 ≤ 200 ∧ 200 ≤ 255 := by decide

/-- At the rates 1 and 199 a context; the XOR of ABSORB and that of Pad both answer; address 199 is capacity. -/
theorem witness_CapacityIsNeverXored :
    ((ctx .absorbing 199#8 198#8 6#8).ContextInv ∧ (ctx .absorbing 199#8 198#8 6#8).phase ≠ .idle ∧
      ∃ A, xorByte (ctx .absorbing 199#8 198#8 6#8).lanes (ctx .absorbing 199#8 198#8 6#8).offset.toNat 7#8 = .ok A) ∧
    ((ctx .finalized 1#8 0#8 6#8).ContextInv ∧ (ctx .finalized 1#8 0#8 6#8).phase ≠ .idle ∧
      ∃ A, pad (ctx .finalized 1#8 0#8 6#8) = .ok A) ∧
    ((ctx .absorbing 199#8 198#8 6#8).rate.toNat ≤ 199 ∧ 199 < 200) :=
  ⟨⟨by decide, by decide, _, rfl⟩, ⟨by decide, by decide, _, rfl⟩, by decide⟩

/-- The rates 1 and 199, and 0 and 200. -/
theorem witness_InitOpensAFreshContext :
    (1 ≤ 1 ∧ 1 ≤ 199) ∧ (1 ≤ 199 ∧ 199 ≤ 199) ∧ ((0 = 0) ∨ 200 ≤ 0) ∧ ((200 = 0) ∨ 200 ≤ 200) := by decide

/-- At rate 1 every ABSORB fills the window; at rate 199 the last offset 198 does and 197 and 0 do not. -/
theorem witness_AbsorbXorsThenAdvancesOrPermutes :
    ((ctx .absorbing 1#8 0#8 6#8).ContextInv ∧ (ctx .absorbing 1#8 0#8 6#8).phase = .absorbing ∧
      (ctx .absorbing 1#8 0#8 6#8).offset.toNat + 1 = (ctx .absorbing 1#8 0#8 6#8).rate.toNat) ∧
    ((ctx .absorbing 199#8 198#8 6#8).ContextInv ∧
      (ctx .absorbing 199#8 198#8 6#8).offset.toNat + 1 = (ctx .absorbing 199#8 198#8 6#8).rate.toNat) ∧
    ((ctx .absorbing 199#8 197#8 6#8).ContextInv ∧
      (ctx .absorbing 199#8 197#8 6#8).offset.toNat + 1 ≠ (ctx .absorbing 199#8 197#8 6#8).rate.toNat) ∧
    ((ctx .absorbing 199#8 0#8 6#8).ContextInv ∧
      (ctx .absorbing 199#8 0#8 6#8).offset.toNat + 1 ≠ (ctx .absorbing 199#8 0#8 6#8).rate.toNat) := by decide

/-- Both phases that are not ABSORBING (the last clauses of AbsorbXorsThenAdvancesOrPermutes,
FinalizePadsPermutesAndSqueezes and FinalvSqueezesItsRowsLength too), and an INIT and an INITV that answer. -/
theorem witness_MisuseOutsideAbsorbing :
    (ctx .idle 1#8 0#8 6#8).phase ≠ .absorbing ∧ (ctx .finalized 1#8 0#8 6#8).phase ≠ .absorbing ∧
    (∃ t, exec (.init 136 6#8) (ctx .idle 1#8 0#8 6#8) = .next t) ∧
    (∃ t, exec (.initv .sha3_512) (ctx .finalized 1#8 0#8 6#8) = .next t) :=
  ⟨by decide, by decide, ⟨_, rfl⟩, ⟨_, rfl⟩⟩

/-- The rates 1 and 199 (OffsetCountsTheBytesAbsorbed, PermutationCountOfADigest, DigestClosedForm,
AbsorptionIsChunkIndependent). -/
theorem witness_legal_rates : (1 ≤ 1 ∧ 1 ≤ 199) ∧ (1 ≤ 199 ∧ 199 ≤ 199) := by decide

/-- A context whose offset is at both ends of the window (PadXorsBothBytes, FinalizePadsPermutesAndSqueezes,
FinalvSqueezesItsRowsLength, AbsorptionDependsOnTheConcatenation), for Pad also when it is not ABSORBING. -/
theorem witness_padding_contexts :
    ((ctx .absorbing 136#8 0#8 6#8).ContextInv ∧ (ctx .absorbing 136#8 0#8 6#8).phase = .absorbing) ∧
    ((ctx .absorbing 136#8 135#8 6#8).ContextInv ∧ (ctx .absorbing 136#8 135#8 6#8).phase = .absorbing) ∧
    ((ctx .finalized 1#8 0#8 6#8).ContextInv ∧ (ctx .finalized 1#8 0#8 6#8).phase ≠ .idle) := by decide

theorem witness_ShorterOutputIsTheBeginningOfLonger :
    0 ≤ 1 ∧ (ctx .absorbing 136#8 3#8 6#8).phase = .absorbing ∧
    (∃ t, exec (.finalize 0) (ctx .absorbing 136#8 3#8 6#8) = .next t) ∧
    (∃ u, exec (.finalize 1) (ctx .absorbing 136#8 3#8 6#8) = .next u) :=
  ⟨by decide, by decide, exists_of_isNext (by decide +kernel), exists_of_isNext (by decide +kernel)⟩

/-- A FINALIZE and a FINALV that answer; the later instruction can be any of the three. -/
theorem witness_FinalizeIsSingleShot :
    (ctx .absorbing 136#8 3#8 6#8).phase = .absorbing ∧
    (∃ t, exec (.finalize 0) (ctx .absorbing 136#8 3#8 6#8) = .next t) ∧
    (∃ t, exec (.finalv .sha3_512) (ctx .absorbing 136#8 3#8 6#8) = .next t) ∧
    (∃ b, Instr.absorb 7#8 = .absorb b) ∧ (∃ n, Instr.finalize 7 = .finalize n) ∧
    (∃ v, Instr.finalv .sha3_224 = .finalv v) :=
  ⟨by decide, exists_of_isNext (by decide +kernel), exists_of_isNext (by decide +kernel), ⟨_, rfl⟩, ⟨_, rfl⟩, ⟨_, rfl⟩⟩

/-- Each of the three errors: an illegal word, a misuse, an illegal rate. -/
theorem witness_ErrorsChangeNothing :
    (present (.c 0#32) (ctx .idle 0#8 0#8 0#8) = .next { ctx .idle 0#8 0#8 0#8 with sent := [] ++ [].map .o ++ [.s 0x03#8] }) ∧
    (shows (present (.c 0x02000061#32) (ctx .idle 0#8 0#8 0#8)) fun t => t.sent == [.s 0x02#8]) = true ∧
    (shows (present (.c 0x0100C806#32) (ctx .idle 0#8 0#8 0#8)) fun t => t.sent == [.s 0x01#8]) = true ∧
    (0x03#8 : StatusWord) ≠ 0x00#8 := ⟨rfl, by decide +kernel, by decide +kernel, by decide⟩

/-- States that meet the invariant of a context, in each phase (OneResponsePerTransaction, StepNeverStops). -/
theorem witness_ContextInv :
    (ctx .idle 0#8 255#8 0#8).ContextInv ∧ (ctx .absorbing 1#8 0#8 0#8).ContextInv ∧
    (ctx .finalized 199#8 198#8 0#8).ContextInv := by decide

theorem witness_StepKeepsStatusesKnown :
    ({ ctx .idle 0#8 0#8 0#8 with sent := [.o 1#8, .s 0x00#8, .s 0x03#8], inputs := [.rst] } : State).StatusesKnown ∧
    ∃ t, step { ctx .idle 0#8 0#8 0#8 with sent := [.o 1#8, .s 0x00#8, .s 0x03#8], inputs := [.rst] } = .next t :=
  ⟨by decide, _, rfl⟩

/-- A transaction on each port that decodes, and a state with nothing presented. -/
theorem witness_StepRunsTheDecodedInstruction :
    (({ ctx .idle 0#8 0#8 0#8 with inputs := [.present (.c 0x04000001#32), .rst] } : State).inputs =
        .present (.c 0x04000001#32) :: [.rst] ∧ decode (.c 0x04000001#32) = .ok (.initv .sha3_256)) ∧
    decode (.p 5#1600) = .ok (.keccakf 5#1600) ∧ (ctx .idle 0#8 0#8 0#8).inputs = [] :=
  ⟨⟨rfl, by decide +kernel⟩, rfl, rfl⟩

theorem witness_PresentedSequenceRunsInOrder :
    ∀ i ∈ [Instr.init 136 6#8, .absorb 0x61#8, .finalize 32], i.wellFormed = true := by decide

/-- An illegal word and an INITV, presented to a machine that has sent nothing. -/
theorem witness_RunGivesOneResponsePerWord :
    let s : State := { ctx .idle 0#8 0#8 0#8 with inputs := [.present (.c 0#32), .present (.c 0x04000001#32)] }
    s.ContextInv ∧ s.sent = [] ∧ s.inputs = [0#32, 0x04000001#32].map (fun W => .present (.c W)) := by decide +kernel

/-- An answer of each of the six instructions (InstructionsOnlyAppendOutputs). -/
theorem witness_InstructionsOnlyAppendOutputs :
    [Instr.keccakf 1#1600, .init 136 6#8, .absorb 7#8, .finalize 0, .initv .sha3_224, .finalv .sha3_224].all
      (fun i => isNext (exec i (ctx .absorbing 136#8 135#8 6#8))) = true := by decide +kernel

/-- An ABSORB answers, and is neither INIT nor INITV (OnlyInitWritesRateAndDelimiter), neither FINALIZE nor FINALV
(DelimiterIsReadOnlyByFinalize). -/
theorem witness_absorb_is_no_other :
    (∃ t, exec (.absorb 7#8) (ctx .absorbing 136#8 0#8 6#8) = .next t) ∧
    (∀ r d, Instr.absorb 7#8 ≠ .init r d) ∧ (∀ v, Instr.absorb 7#8 ≠ .initv v) ∧
    (∀ n, Instr.absorb 7#8 ≠ .finalize n) ∧ (∀ v, Instr.absorb 7#8 ≠ .finalv v) :=
  ⟨exists_of_isNext (by decide +kernel), fun _ _ => by simp, fun _ => by simp, fun _ => by simp, fun _ => by simp⟩

/-- A step for each clause: no change, into ABSORBING, into FINALIZED, and into IDLE by either reset. -/
theorem witness_PhaseFollowsTheLifecycle :
    (shows (step { ctx .finalized 1#8 0#8 0#8 with inputs := [.present (.c 0#32)] }) fun t => t.phase == .finalized) = true ∧
    (shows (step { ctx .finalized 1#8 0#8 0#8 with inputs := [.present (.c 0x04000000#32)] })
      fun t => t.phase == .absorbing) = true ∧
    (shows (step { ctx .absorbing 1#8 0#8 0#8 with inputs := [.present (.c 0x03000000#32)] })
      fun t => t.phase == .finalized) = true ∧
    (shows (step { ctx .absorbing 1#8 0#8 0#8 with inputs := [.rst] }) fun t => t.phase == .idle) = true ∧
    (shows (step { ctx .absorbing 1#8 0#8 0#8 with inputs := [.rstDuring 0x03000000#32 0] })
      fun t => t.phase == .idle) = true := by decide +kernel

/-- A context in the middle of a window, with an ABSORB presented. -/
theorem witness_StepKeepsContextInvariant :
    ({ ctx .absorbing 199#8 197#8 6#8 with inputs := [.present (.c 0x02000061#32)] } : State).ContextInv ∧
    ∃ t, step { ctx .absorbing 199#8 197#8 6#8 with inputs := [.present (.c 0x02000061#32)] } = .next t :=
  ⟨by decide, exists_of_isNext (by decide +kernel)⟩

/-- The further clauses of StepKeepsPermLogRight: an answer of each instruction, in and outside ABSORBING, and a step of
each kind of reset. -/
theorem witness_calls_of_each_instruction :
    [Instr.keccakf 1#1600, .init 136 6#8, .absorb 7#8, .finalize 0, .initv .sha3_224, .finalv .sha3_224].all
      (fun i => isNext (exec i (ctx .absorbing 136#8 135#8 6#8)) && isNext (exec i (ctx .idle 0#8 0#8 0#8))) = true ∧
    isNext (step { ctx .absorbing 1#8 0#8 0#8 with inputs := [.rst] }) = true ∧
    isNext (step { ctx .absorbing 1#8 0#8 0#8 with inputs := [.rstDuring 0x03000000#32 0] }) = true := by decide +kernel

/-- A log with one right call, and a KECCAKF presented. -/
theorem witness_StepKeepsPermLogRight :
    let s : State :=
      { ctx .idle 0#8 0#8 0#8 with
        permLog := [{ request := 1#1600, response := permModule 1#1600 }]
        inputs := [.present (.p 2#1600)] }
    s.PermLogRight ∧ ∃ t, step s = .next t := by
  refine ⟨fun call h => ?_, _, rfl⟩
  rw [List.mem_singleton.mp h]

theorem witness_ResetEventReturnsToIdle :
    ({ ctx .absorbing 1#8 0#8 0#8 with inputs := [.rst, .rst] } : State).inputs = .rst :: [.rst] := rfl

theorem witness_ResetInsideACommandAbandonsIt :
    let s : State := { ctx .absorbing 136#8 3#8 6#8 with inputs := [.rstDuring 0x03000020#32 5, .rst] }
    s.ContextInv ∧ s.inputs = .rstDuring 0x03000020#32 5 :: [.rst] := by decide +kernel

/-- Two states with no context that differ in all five unspecified registers. -/
theorem witness_UnspecifiedRegistersAreUnobservable :
    (ctx .idle 1#8 2#8 3#8).SameButUnspecified { ctx .idle 4#8 5#8 6#8 with lanes := oneLane 0 1 } ∧
    ctx .idle 1#8 2#8 3#8 ≠ { ctx .idle 4#8 5#8 6#8 with lanes := oneLane 0 1 } := by decide +kernel

end Sys2Proof.Tests
end

/-!
PROOFS about the state (spec/10_state.md). What a step, a presented transaction and an instruction can do, said once; then
the statements of the family: the context's invariant (R26), the bytes counted by `offset` (R26 e), who writes and who
reads `rate`, `delimiter` and `phase` (R22, R24, R25), and what reset leaves unspecified (R34).
-/

namespace Sys2Proof.Machine

/-! ## What a step can do -/

/-- A presented transaction (R49, R65): it decodes and is executed, or it is answered with ILLEGAL_COMMAND alone. -/
theorem present_cases {tr : Transaction} {s t : State} (h : present tr s = .next t) :
    (∃ i, decode tr = .ok i ∧ exec i s = .next t) ∨
    (∃ e, decode tr = .error e ∧ t = deliver (errorCode .illegalCommand) s) := by
  rw [present] at h
  cases hd : decode tr with
  | ok i => exact .inl ⟨i, rfl, by rwa [hd] at h⟩
  | error e =>
    rw [hd] at h
    cases h
    exact .inr ⟨e, rfl, rfl⟩

/-- RST inside a command (R150): the command's own answer fixes the bytes that stay emitted. -/
theorem presentUntilReset_cases {W : CmdWord} {n : Nat} {s t : State} (h : presentUntilReset W n s = .next t) :
    ∃ u, present (.c W) s = .next u ∧
      t = resetEvent (emit ((bytesOf (u.sent.drop s.sent.length)).take n) s) := by
  rw [presentUntilReset] at h
  cases hp : present (.c W) s with
  | next u =>
    rw [hp] at h
    cases h
    exact ⟨u, rfl, rfl⟩
  | fault f => simp [hp] at h
  | refused r => simp [hp] at h

/-- A step (R49, R150): nothing is presented, a transaction is, RST is asserted, or RST is asserted inside a command. -/
theorem step_cases {s t : State} (h : step s = .next t) :
    (s.inputs = [] ∧ t = s) ∨
    (∃ tr rest, s.inputs = .present tr :: rest ∧ present tr { s with inputs := rest } = .next t) ∨
    (∃ rest, s.inputs = .rst :: rest ∧ t = resetEvent { s with inputs := rest }) ∨
    (∃ W n rest u, s.inputs = .rstDuring W n :: rest ∧ present (.c W) { s with inputs := rest } = .next u ∧
      t = resetEvent (emit ((bytesOf (u.sent.drop s.sent.length)).take n) { s with inputs := rest })) := by
  rw [step] at h
  cases hin : s.inputs with
  | nil =>
    rw [hin] at h
    cases h
    exact .inl ⟨rfl, rfl⟩
  | cons input rest =>
    rw [hin] at h
    cases input with
    | present tr => exact .inr (.inl ⟨tr, rest, rfl, h⟩)
    | rst =>
      cases h
      exact .inr (.inr (.inl ⟨rest, rfl, rfl⟩))
    | rstDuring W n =>
      obtain ⟨u, hu, ht⟩ := presentUntilReset_cases h
      exact .inr (.inr (.inr ⟨W, n, rest, u, rfl, hu, ht⟩))

/-- What an instruction that answers has done: KECCAKF on port P, an error's status alone, a fresh context, a byte absorbed,
or a context finalized (R88, R134, R100 and R120, R101, R102 and R121). `exec_effect` ties it to `exec`. -/
inductive ExecEffect (s : State) : Instr → State → Prop
  | answersPortP (S : PermVec) :
      ExecEffect s (.keccakf S) { s with permLog := s.permLog ++ [{ request := S, response := permModule S }] }
  | fails (i : Instr) (e : ErrorKind) : ExecEffect s i (deliver (errorCode e) s)
  | opens {i : Instr} {r : Nat} {d : Byte} (hi : i = .init r d ∨ ∃ v, i = .initv v ∧ r = cfgRate v ∧ d = cfgDelim)
      (hr : 1 ≤ r ∧ r ≤ 199) : ExecEffect s i (deliver statusOk (openContext r d s))
  | absorbs {b : Byte} {A : Lanes} (hp : s.phase = .absorbing) (hA : xorByte s.lanes s.offset.toNat b = .ok A) :
      ExecEffect s (.absorb b) (deliver statusOk (advanceOffset (setLanes A s)))
  | finalizes {i : Instr} {n : Nat} {A : Lanes} {u : State} (hi : i = .finalize n ∨ ∃ v, i = .finalv v ∧ n = cfgOutlen v)
      (hp : s.phase = .absorbing) (hA : pad s = .ok A) (hu : squeeze n n (permute (setLanes A s)) = .ok u) :
      ExecEffect s i (deliver statusOk { u with phase := .finalized })

theorem initContext_effect {i : Instr} {r : Nat} {d : Byte} {s t : State}
    (hi : i = .init r d ∨ ∃ v, i = .initv v ∧ r = cfgRate v ∧ d = cfgDelim) (h : initContext r d s = .next t) :
    ExecEffect s i t := by
  obtain ⟨hr, rfl⟩ | ⟨-, rfl⟩ := initContext_cases h
  · exact .opens hi hr
  · exact .fails i _

theorem finalizeContext_effect {i : Instr} {n : Nat} {s t : State}
    (hi : i = .finalize n ∨ ∃ v, i = .finalv v ∧ n = cfgOutlen v) (h : finalizeContext n s = .next t) :
    ExecEffect s i t := by
  obtain ⟨-, rfl⟩ | ⟨hp, A, u, hA, hu, rfl⟩ := finalizeContext_cases h
  · exact .fails i _
  · exact .finalizes hi hp hA hu

theorem exec_effect {i : Instr} {s t : State} (h : exec i s = .next t) : ExecEffect s i t := by
  cases i with
  | keccakf S =>
    cases h
    exact .answersPortP S
  | init r d => exact initContext_effect (.inl rfl) h
  | initv v => exact initContext_effect (.inr ⟨v, rfl, rfl, rfl⟩) h
  | finalize n => exact finalizeContext_effect (.inl rfl) h
  | finalv v => exact finalizeContext_effect (.inr ⟨v, rfl, rfl⟩) h
  | absorb b =>
    obtain ⟨-, rfl⟩ | ⟨hp, A, hA, rfl⟩ := execAbsorb_cases h
    · exact .fails _ _
    · exact .absorbs hp hA

/-! ## What the operations answer -/

theorem initContext_of_legal {r : Nat} (d : Byte) (s : State) (h : 1 ≤ r ∧ r ≤ 199) :
    initContext r d s = .next (deliver statusOk (openContext r d s)) := by
  have : 1 ≤ r ∧ r < 200 := by omega
  simp [initContext, rateLegal, rateMin, stateBytes, this, done]

theorem initContext_of_illegal {r : Nat} (d : Byte) (s : State) (h : r = 0 ∨ 200 ≤ r) :
    initContext r d s = raise .invalidRate s := by
  have : ¬(1 ≤ r ∧ r < 200) := by omega
  simp [initContext, rateLegal, rateMin, stateBytes, this]

theorem execAbsorb_of_not_absorbing (b : Byte) {s : State} (h : s.phase ≠ .absorbing) :
    execAbsorb b s = raise .misuse s := by
  simp [execAbsorb, h]

theorem execAbsorb_of_xorByte {b : Byte} {s : State} {A : Lanes} (hp : s.phase = .absorbing)
    (hA : xorByte s.lanes s.offset.toNat b = .ok A) :
    execAbsorb b s = .next (deliver statusOk (advanceOffset (setLanes A s))) := by
  simp [execAbsorb, hp, offsetAddress, hA, done]

theorem finalizeContext_of_not_absorbing (n : Nat) {s : State} (h : s.phase ≠ .absorbing) :
    finalizeContext n s = raise .misuse s := by
  simp [finalizeContext, h]

/-! `advanceOffset` moves `offset` and may permute; the other registers and the host's side are as before. -/

@[simp] theorem advanceOffset_rate (s : State) : (advanceOffset s).rate = s.rate := by
  unfold advanceOffset; split <;> rfl
@[simp] theorem advanceOffset_delimiter (s : State) : (advanceOffset s).delimiter = s.delimiter := by
  unfold advanceOffset; split <;> rfl
@[simp] theorem advanceOffset_phase (s : State) : (advanceOffset s).phase = s.phase := by
  unfold advanceOffset; split <;> rfl
@[simp] theorem advanceOffset_inputs (s : State) : (advanceOffset s).inputs = s.inputs := by
  unfold advanceOffset; split <;> rfl
@[simp] theorem advanceOffset_sent (s : State) : (advanceOffset s).sent = s.sent := by
  unfold advanceOffset; split <;> rfl
@[simp] theorem advanceOffset_draws (s : State) : (advanceOffset s).draws = s.draws := by
  unfold advanceOffset; split <;> rfl

/-- `offset` counts modulo `rate` (R101); below the window's end there is no overflow of its 8 bits. -/
theorem advanceOffset_offset {s : State} (h : s.offset.toNat < s.rate.toNat) :
    (advanceOffset s).offset.toNat = (s.offset.toNat + 1) % s.rate.toNat := by
  have hr := s.rate.isLt
  obtain ⟨hfull, ht⟩ | ⟨hmore, ht⟩ := advanceOffset_cases s
  · simp [ht, hfull]
  · have hlt : s.offset.toNat + 1 < s.rate.toNat := by omega
    simp only [ht, BitVec.toNat_add, BitVec.toNat_ofNat, Nat.mod_eq_of_lt hlt]
    omega

/-- One call of port P exactly when the window becomes full (R101, R106). -/
theorem advanceOffset_permLog_length {s : State} (h : s.offset.toNat < s.rate.toNat) :
    (advanceOffset s).permLog.length = s.permLog.length + (s.offset.toNat + 1) / s.rate.toNat := by
  obtain ⟨hfull, ht⟩ | ⟨hmore, ht⟩ := advanceOffset_cases s
  · have : (s.offset.toNat + 1) / s.rate.toNat = 1 := by rw [hfull, Nat.div_self (by omega)]
    simp [ht, this]
  · have : (s.offset.toNat + 1) / s.rate.toNat = 0 := Nat.div_eq_of_lt (by omega)
    simp [ht, this]

/-! ## The invariant of a context (R26) -/

theorem openContext_contextInv {r : Nat} (d : Byte) (s : State) (h : 1 ≤ r ∧ r ≤ 199) :
    (openContext r d s).ContextInv := by
  intro _
  simp only [openContext_rate, openContext_offset, BitVec.toNat_ofNat]
  omega

theorem advanceOffset_contextInv {s : State} (h : s.ContextInv) : (advanceOffset s).ContextInv := by
  intro hp
  obtain ⟨hr1, hr2, ho⟩ := h (by simpa using hp)
  rw [advanceOffset_offset ho, advanceOffset_rate]
  exact ⟨hr1, hr2, Nat.mod_lt _ hr1⟩

/-- The invariant of an instruction (R26 a, b): only opening a context and absorbing move `rate` or `offset`. -/
theorem exec_contextInv {i : Instr} {s t : State} (hs : s.ContextInv) (h : exec i s = .next t) : t.ContextInv := by
  cases exec_effect h with
  | answersPortP S => exact hs
  | fails i e => exact hs
  | @opens _ r d _ hr => exact openContext_contextInv d s hr
  | @absorbs _ A _ _ => exact advanceOffset_contextInv (s := setLanes A s) hs
  | finalizes _ hp _ hu =>
    obtain ⟨hrate, hoffset, -⟩ := squeeze_frame _ _ _ _ hu
    intro _
    simpa [hrate, hoffset] using hs (by simp [hp])

theorem present_contextInv {tr : Transaction} {s t : State} (hs : s.ContextInv) (h : present tr s = .next t) :
    t.ContextInv := by
  obtain ⟨i, -, hx⟩ | ⟨e, -, rfl⟩ := present_cases h
  · exact exec_contextInv hs hx
  · exact hs

theorem resetEvent_contextInv (s : State) : (resetEvent s).ContextInv := fun hp => absurd rfl hp

/-- Settles O44: a step waits, carries out a transaction, or resets, and each of them keeps the invariant. -/
theorem stepKeepsContextInvariant : Obligations.StepKeepsContextInvariant := by
  intro s t hs h
  obtain ⟨-, rfl⟩ | ⟨tr, rest, -, hx⟩ | ⟨rest, -, rfl⟩ | ⟨W, n, rest, u, -, -, rfl⟩ := step_cases h
  · exact hs
  · exact present_contextInv (s := { s with inputs := rest }) hs hx
  · exact resetEvent_contextInv _
  · exact resetEvent_contextInv _

/-- Settles O47: every list is empty, and no context exists. -/
theorem resetStateMeetsTheInvariants : Obligations.ResetStateMeetsTheInvariants :=
  ⟨rfl, rfl, rfl, rfl, fun hp => absurd rfl hp, fun _ hw => absurd hw List.not_mem_nil,
    fun _ hc => absurd hc List.not_mem_nil⟩

/-! ## The bytes absorbed (R26 e) -/

/-- ABSORB answers in every context that is ABSORBING (R101): its address is below 200. -/
theorem execAbsorb_answers (b : Byte) {s : State} (hs : s.ContextInv) (hp : s.phase = .absorbing) :
    ∃ A, execAbsorb b s = .next (deliver statusOk (advanceOffset (setLanes A s))) := by
  obtain ⟨-, hr, ho⟩ := hs (by simp [hp])
  obtain ⟨A, hA⟩ := xorByte_ok_of_lt s.lanes s.offset.toNat b (by omega)
  exact ⟨A, execAbsorb_of_xorByte hp hA⟩

/-- Counting `a` and then `n` more in windows of `r`. -/
theorem div_add_mod_add_div (a n : Nat) {r : Nat} (hr : 0 < r) : a / r + (a % r + n) / r = (a + n) / r := by
  have e : a + n = a % r + n + r * (a / r) := by
    have := Nat.div_add_mod a r
    omega
  rw [e, Nat.add_mul_div_left _ _ hr, Nat.add_comm]

/-- Absorbing `m` from any ABSORBING context (R26 e): `offset` and the number of permutations count its bytes. -/
theorem absorbing_counts (m : List Byte) : ∀ s : State, s.ContextInv → s.phase = .absorbing →
    NextWith (execAll (updateCommands m) s) fun t =>
      t.offset.toNat = (s.offset.toNat + m.length) % s.rate.toNat ∧
      t.permLog.length = s.permLog.length + (s.offset.toNat + m.length) / s.rate.toNat ∧
      t.phase = .absorbing ∧ t.rate = s.rate ∧ t.delimiter = s.delimiter := by
  induction m with
  | nil =>
    intro s hs hp
    obtain ⟨-, -, ho⟩ := hs (by simp [hp])
    exact ⟨s, rfl, (Nat.mod_eq_of_lt ho).symm, by simp [Nat.div_eq_of_lt ho], hp, rfl, rfl⟩
  | cons b m ih =>
    intro s hs hp
    obtain ⟨hr, -, ho⟩ := hs (by simp [hp])
    obtain ⟨A, hA⟩ := execAbsorb_answers b hs hp
    have hlen : s.offset.toNat + (b :: m).length = s.offset.toNat + 1 + m.length := by
      rw [List.length_cons]; omega
    obtain ⟨t, ht, hoffset, hcalls, hphase, hrate, hdelim⟩ :=
      ih (deliver statusOk (advanceOffset (setLanes A s))) (exec_contextInv (i := .absorb b) hs hA) (by simp [hp])
    simp only [deliver_offset, deliver_rate, deliver_permLog, deliver_delimiter, advanceOffset_rate,
      advanceOffset_delimiter, setLanes_rate, setLanes_delimiter, setLanes_offset, setLanes_permLog,
      advanceOffset_offset (s := setLanes A s) ho,
      advanceOffset_permLog_length (s := setLanes A s) ho] at hoffset hcalls hrate hdelim
    refine ⟨t, ?_, ?_, ?_, hphase, hrate, hdelim⟩
    · simpa [updateCommands, execAll, exec, hA] using ht
    · rw [hoffset, hlen, Nat.mod_add_mod]
    · rw [hcalls, hlen, Nat.add_assoc, div_add_mod_add_div _ _ hr]

/-- Settles O22: INIT opens the context at offset 0, and absorbing counts from there. -/
theorem offsetCountsTheBytesAbsorbed : Obligations.OffsetCountsTheBytesAbsorbed := by
  intro r d m s h1 h2
  have hinit : exec (.init r d) s = .next (deliver statusOk (openContext r d s)) := initContext_of_legal d s ⟨h1, h2⟩
  have hrate : r % 256 = r := Nat.mod_eq_of_lt (by omega)
  obtain ⟨t, ht, hoffset, hcalls, hphase, htrate, hdelim⟩ :=
    absorbing_counts m (deliver statusOk (openContext r d s)) (openContext_contextInv d s ⟨h1, h2⟩) rfl
  refine ⟨t, ?_, ?_, ?_, hphase, ?_, hdelim⟩
  · simpa only [execAll, hinit] using ht
  · simpa [hrate] using hoffset
  · simpa [hrate] using hcalls
  · simpa [hrate] using congrArg BitVec.toNat htrate

/-! ## Who writes and who reads the registers (R22, R24, R25) -/

/-- Settles O41: of the cases of an instruction only the one that opens a context writes them. -/
theorem onlyInitWritesRateAndDelimiter : Obligations.OnlyInitWritesRateAndDelimiter := by
  intro i s t h hinit hinitv
  cases exec_effect h with
  | answersPortP S => exact ⟨rfl, rfl⟩
  | fails i e => exact ⟨rfl, rfl⟩
  | opens hi _ =>
    obtain hi | ⟨v, hi, -⟩ := hi
    · exact absurd hi (hinit _ _)
    · exact absurd hi (hinitv v)
  | absorbs _ _ => simp
  | finalizes _ _ _ hu =>
    obtain ⟨hrate, -, hdelim, -⟩ := squeeze_frame _ _ _ _ hu
    simp [hrate, hdelim]

theorem advanceOffset_withDelimiter (d : Byte) (s : State) :
    advanceOffset { s with delimiter := d } = { advanceOffset s with delimiter := d } := by
  have hfull : windowFull { s with delimiter := d } = windowFull s := rfl
  rw [advanceOffset, advanceOffset, hfull]
  split <;> rfl

/-- INIT's operation does not read the delimiter (R24, R100). -/
theorem initContext_ignores_delimiter {r : Nat} {e : Byte} {s t : State} (d : Byte) (h : initContext r e s = .next t) :
    NextWith (initContext r e { s with delimiter := d }) fun u => { u with delimiter := t.delimiter } = t := by
  obtain ⟨hr, rfl⟩ | ⟨hr, rfl⟩ := initContext_cases h
  · exact ⟨_, initContext_of_legal _ _ hr, rfl⟩
  · exact ⟨_, initContext_of_illegal _ _ hr, rfl⟩

/-- ABSORB does not read the delimiter (R24, R101). -/
theorem execAbsorb_ignores_delimiter {b : Byte} {s t : State} (d : Byte) (h : execAbsorb b s = .next t) :
    NextWith (execAbsorb b { s with delimiter := d }) fun u => { u with delimiter := t.delimiter } = t := by
  obtain ⟨hp, rfl⟩ | ⟨hp, A, hA, rfl⟩ := execAbsorb_cases h
  · exact ⟨_, execAbsorb_of_not_absorbing b (s := { s with delimiter := d }) hp, rfl⟩
  · refine ⟨_, execAbsorb_of_xorByte (s := { s with delimiter := d }) hp hA, ?_⟩
    exact congrArg
      (fun u : State => { deliver statusOk u with delimiter := (deliver statusOk (advanceOffset (setLanes A s))).delimiter })
      (advanceOffset_withDelimiter d (setLanes A s))

/-- Settles O42: one case for each instruction that is left. -/
theorem delimiterIsReadOnlyByFinalize : Obligations.DelimiterIsReadOnlyByFinalize := by
  intro i s t d hfinalize hfinalv h
  cases i with
  | keccakf S =>
    cases h
    exact ⟨_, rfl, rfl⟩
  | init r e => exact initContext_ignores_delimiter d h
  | initv v => exact initContext_ignores_delimiter d h
  | absorb b => exact execAbsorb_ignores_delimiter d h
  | finalize n => exact absurd rfl (hfinalize n)
  | finalv v => exact absurd rfl (hfinalv v)

/-- An instruction and `phase` (R25): unchanged, opened by INIT or INITV, or closed by FINALIZE or FINALV. -/
theorem exec_phase_cases {i : Instr} {s t : State} (h : exec i s = .next t) :
    t.phase = s.phase ∨
    (t.phase = .absorbing ∧ ((∃ r d, i = .init r d) ∨ ∃ v, i = .initv v)) ∨
    (s.phase = .absorbing ∧ t.phase = .finalized ∧ ((∃ n, i = .finalize n) ∨ ∃ v, i = .finalv v)) := by
  cases exec_effect h with
  | answersPortP S => exact .inl rfl
  | fails i e => exact .inl rfl
  | opens hi _ => exact .inr (.inl ⟨rfl, hi.imp (fun hi => ⟨_, _, hi⟩) fun ⟨v, hv, _⟩ => ⟨v, hv⟩⟩)
  | absorbs _ _ => exact .inl (by simp)
  | finalizes hi hp _ _ => exact .inr (.inr ⟨hp, rfl, hi.imp (fun hi => ⟨_, hi⟩) fun ⟨v, hv, _⟩ => ⟨v, hv⟩⟩)

/-- Port P's requests are KECCAKF, which keeps `phase` (R63, R88). -/
theorem present_portP_phase {S : PermVec} {s t : State} (h : present (.p S) s = .next t) : t.phase = s.phase := by
  cases h
  rfl

/-- Settles O43: a step's case gives the input presented, and the instruction decoded from it the change of `phase`. -/
theorem phaseFollowsTheLifecycle : Obligations.PhaseFollowsTheLifecycle := by
  intro s t h
  obtain ⟨-, rfl⟩ | ⟨tr, rest, hin, hx⟩ | ⟨rest, hin, rfl⟩ | ⟨W, n, rest, u, hin, -, rfl⟩ := step_cases h
  · exact .inl rfl
  · cases tr with
    | p S => exact .inl (present_portP_phase (s := { s with inputs := rest }) hx)
    | c W =>
      obtain ⟨i, hd, hx⟩ | ⟨e, -, rfl⟩ := present_cases hx
      · obtain hsame | ⟨hp, hi⟩ | ⟨hs, hp, hi⟩ := exec_phase_cases hx
        · exact .inl hsame
        · exact .inr (.inl ⟨hp, W, i, rest, hin, hd, hi⟩)
        · exact .inr (.inr (.inl ⟨hs, hp, W, i, rest, hin, hd, hi⟩))
      · exact .inl rfl
  · exact .inr (.inr (.inr ⟨rfl, .inl ⟨rest, hin⟩⟩))
  · exact .inr (.inr (.inr ⟨rfl, .inr ⟨W, n, rest, hin⟩⟩))

/-! ## What reset leaves unspecified (R34) -/

/-- Both outcomes are next states, which are equal or again differ in the unspecified registers alone. -/
def AnswerAlike (o o' : Host.Outcome State Fault Refusal) : Prop :=
  NextWith o fun t => NextWith o' fun t' => t = t' ∨ t.SameButUnspecified t'

section SameButUnspecified

variable {s s' : State} (h : s.SameButUnspecified s')
include h

theorem sameButUnspecified_deliver (w : StatusWord) : (deliver w s).SameButUnspecified (deliver w s') := by
  obtain ⟨hp, hp', hin, hsent, hlog, hdraws⟩ := h
  exact ⟨hp, hp', hin, by simp [hsent], hlog, hdraws⟩

theorem sameButUnspecified_emit (bs : List Byte) : (emit bs s).SameButUnspecified (emit bs s') := by
  obtain ⟨hp, hp', hin, hsent, hlog, hdraws⟩ := h
  exact ⟨hp, hp', hin, by simp [hsent], hlog, hdraws⟩

theorem raise_alike (e : ErrorKind) : AnswerAlike (raise e s) (raise e s') :=
  ⟨_, rfl, _, rfl, .inr (sameButUnspecified_deliver h _)⟩

/-- Opening a context writes every unspecified register (R100). -/
theorem openContext_eq_of_sameButUnspecified (r : Nat) (d : Byte) : openContext r d s = openContext r d s' := by
  obtain ⟨-, -, hin, hsent, hlog, hdraws⟩ := h
  simp [openContext, hin, hsent, hlog, hdraws]

/-- A reset draws every unspecified register afresh (R34). -/
theorem resetEvent_eq_of_sameButUnspecified : resetEvent s = resetEvent s' := by
  obtain ⟨-, -, hin, hsent, hlog, hdraws⟩ := h
  simp [resetEvent, hin, hsent, hlog, hdraws]

theorem initContext_alike (r : Nat) (d : Byte) : AnswerAlike (initContext r d s) (initContext r d s') := by
  by_cases hr : 1 ≤ r ∧ r ≤ 199
  · rw [initContext_of_legal d s hr, initContext_of_legal d s' hr, openContext_eq_of_sameButUnspecified h]
    exact ⟨_, rfl, _, rfl, .inl rfl⟩
  · rw [initContext_of_illegal d s (by omega), initContext_of_illegal d s' (by omega)]
    exact raise_alike h _

/-- With no context every instruction fails, opens a context, or leaves the registers alone (R100, R132). -/
theorem exec_alike (i : Instr) : AnswerAlike (exec i s) (exec i s') := by
  have ⟨hp, hp', hin, hsent, hlog, hdraws⟩ := h
  have hs : s.phase ≠ .absorbing := by simp [hp]
  have hs' : s'.phase ≠ .absorbing := by simp [hp']
  have finalizes : ∀ n, AnswerAlike (finalizeContext n s) (finalizeContext n s') := fun n => by
    rw [finalizeContext_of_not_absorbing n hs, finalizeContext_of_not_absorbing n hs']
    exact raise_alike h _
  cases i with
  | keccakf S => exact ⟨_, rfl, _, rfl, .inr ⟨hp, hp', hin, hsent, by simp [hlog], hdraws⟩⟩
  | init r d => exact initContext_alike h r d
  | initv v => exact initContext_alike h _ _
  | finalize n => exact finalizes n
  | finalv v => exact finalizes _
  | absorb b =>
    rw [exec, exec, execAbsorb_of_not_absorbing b hs, execAbsorb_of_not_absorbing b hs']
    exact raise_alike h _

theorem present_alike (tr : Transaction) : AnswerAlike (present tr s) (present tr s') := by
  rw [present, present]
  cases decode tr with
  | ok i => exact exec_alike h i
  | error e => exact raise_alike h _

/-- The bytes that stay emitted are those the command sends, which are the same from both states (R150). -/
theorem presentUntilReset_alike (W : CmdWord) (n : Nat) :
    AnswerAlike (presentUntilReset W n s) (presentUntilReset W n s') := by
  obtain ⟨u, hu, u', hu', hsame⟩ := present_alike h (.c W)
  have ⟨_, _, _, hsent, _⟩ := h
  have husent : u.sent = u'.sent := by
    obtain rfl | ⟨-, -, -, husent, -⟩ := hsame
    · rfl
    · exact husent
  refine ⟨_, by rw [presentUntilReset, hu], _, by rw [presentUntilReset, hu'], .inl ?_⟩
  rw [husent, hsent]
  exact resetEvent_eq_of_sameButUnspecified (sameButUnspecified_emit h _)

theorem takeInput_alike (input : HostInput) : AnswerAlike (takeInput input s) (takeInput input s') := by
  cases input with
  | present tr => exact present_alike h tr
  | rst => exact ⟨_, rfl, _, rfl, .inl (resetEvent_eq_of_sameButUnspecified h)⟩
  | rstDuring W n => exact presentUntilReset_alike h W n

end SameButUnspecified

/-- Settles O50: the same input is taken in both states. -/
theorem unspecifiedRegistersAreUnobservable : Obligations.UnspecifiedRegistersAreUnobservable := by
  intro s s' h
  have ⟨hp, hp', hin, hsent, hlog, hdraws⟩ := h
  rw [step, step, ← hin]
  cases s.inputs with
  | nil => exact ⟨s, rfl, s', rfl, .inr h⟩
  | cons input rest =>
    exact takeInput_alike (s := { s with inputs := rest }) (s' := { s' with inputs := rest })
      ⟨hp, hp', rfl, hsent, hlog, hdraws⟩ input

end Sys2Proof.Machine

/-!
PROOFS about memory and order (spec/20_memory.md). The bits of the 1600-bit vector of port P (R48), the bytes of a lane
(R40, R41), the three byte primitives (R42) and the capacity they spare (R43); then the frame of every instruction (R47)
and the order in which presented instructions run (R49).
-/

namespace Sys2Proof.Machine

/-! ## The 1600-bit vector of port P (R48) -/

/-- Bit `z` of lane `i` of a list of lanes laid out one above the other, 64 bits each. -/
theorem testBit_foldr_lanes (lanes : List Lane) : ∀ (i : Nat) (h : i < lanes.length) (z : Nat), z < 64 →
    (lanes.foldr (fun (lane : Lane) above => lane.toNat + 2 ^ 64 * above) 0).testBit (64 * i + z) =
      lanes[i].getLsbD z := by
  induction lanes with
  | nil => intro i h; exact absurd h (Nat.not_lt_zero i)
  | cons lane lanes ih =>
    intro i h z hz
    rw [List.foldr_cons, Nat.add_comm lane.toNat, Nat.testBit_two_pow_mul_add _ lane.isLt]
    cases i with
    | zero => simp [hz, BitVec.testBit_toNat]
    | succ i =>
      have hge : ¬ 64 * (i + 1) + z < 64 := by omega
      have hsub : 64 * (i + 1) + z - 64 = 64 * i + z := by omega
      rw [if_neg hge, hsub, ih i (by simpa using h) z hz, List.getElem_cons_succ]

theorem getLsbD_packLanes (A : Lanes) (i : Nat) (h : i < 25) (z : Nat) (hz : z < 64) :
    (packLanes A).getLsbD (64 * i + z) = A[i].getLsbD z := by
  have hlt : 64 * i + z < 1600 := by omega
  rw [packLanes, BitVec.getLsbD_ofNat, testBit_foldr_lanes A.toList i (by simpa using h) z hz, Vector.getElem_toList]
  simp [hlt]

theorem getLsbD_unpackLanes (S : PermVec) (i : Nat) (h : i < 25) (z : Nat) (hz : z < 64) :
    (unpackLanes S)[i].getLsbD z = S.getLsbD (64 * i + z) := by
  have hi : i % 5 + 5 * (i / 5) = i := by omega
  rw [unpackLanes, getElem_lanesOf _ _ h, hi, BitVec.getLsbD_extractLsb']
  simp [hz]

theorem unpackLanes_packLanes (A : Lanes) : unpackLanes (packLanes A) = A := by
  apply Vector.ext
  intro i hi
  apply BitVec.eq_of_getLsbD_eq
  intro z hz
  rw [getLsbD_unpackLanes _ i hi z hz, getLsbD_packLanes A i hi z hz]

theorem packLanes_unpackLanes (S : PermVec) : packLanes (unpackLanes S) = S := by
  apply BitVec.eq_of_getLsbD_eq
  intro n hn
  have hpack := getLsbD_packLanes (unpackLanes S) (n / 64) (by omega) (n % 64) (by omega)
  rwa [getLsbD_unpackLanes S (n / 64) (by omega) (n % 64) (by omega), Nat.div_add_mod] at hpack

/-! ## The bytes of a lane (R40, R41) -/

theorem getLsbD_byteAt (A : Lanes) (k : Nat) (h : k < 200) (b : Nat) (hb : b < 8) :
    (byteAt A k).getLsbD b = (A[k / 8]'(by omega)).getLsbD (8 * (k % 8) + b) := by
  rw [byteAt_of_lt A k h, getLsbD_laneByte]
  simp [hb]

/-- The byte at address `k` stands at bits `8*k+7 .. 8*k` of port P's vector (R48). -/
theorem byteAt_eq_extract_packLanes (A : Lanes) (k : Nat) (h : k < 200) :
    byteAt A k = (packLanes A).extractLsb' (8 * k) 8 := by
  apply BitVec.eq_of_getLsbD_eq
  intro b hb
  have haddr : 8 * k + b = 64 * (k / 8) + (8 * (k % 8) + b) := by omega
  rw [getLsbD_byteAt A k h b hb, BitVec.getLsbD_extractLsb', haddr,
    getLsbD_packLanes A (k / 8) (by omega) _ (by omega)]
  simp [hb]

/-- Settles O13: both layouts say the same bit by bit, and every bit of the vector belongs to one lane. -/
theorem portPVectorLayout : Obligations.PortPVectorLayout :=
  ⟨getLsbD_packLanes,
    fun A k h => by rw [memRead_eq_byteAt A k h, byteAt_eq_extract_packLanes A k h],
    unpackLanes_packLanes, packLanes_unpackLanes⟩

/-- Byte `j` of a lane as a number: the digit of 256 at place `j`. -/
theorem laneByte_eq_ofNat (lane : Lane) (j : Nat) : laneByte lane j = BitVec.ofNat 8 (lane.toNat / 256 ^ j) := by
  have hpow : 256 ^ j = 2 ^ (8 * j) := by rw [Nat.pow_mul]
  apply BitVec.eq_of_toNat_eq
  rw [laneByte, hpow, BitVec.toNat_setWidth, BitVec.toNat_ushiftRight, Nat.shiftRight_eq_div_pow, BitVec.toNat_ofNat]

/-- The lowest `n` digits of a number in base 256, put together again. -/
theorem sum_digits_256 (x n : Nat) :
    ((List.range n).map fun j => x / 256 ^ j % 256 * 256 ^ j).sum = x % 256 ^ n := by
  induction n with
  | zero => simp [Nat.mod_one]
  | succ n ih => rw [List.sum_range_succ, ih, Nat.mod_pow_succ, Nat.mul_comm]

theorem toNat_lane_eq_sum_bytes (A : Lanes) (i : Nat) (h : i < 25) :
    A[i].toNat = ((List.range 8).map fun j => (byteAt A (8 * i + j)).toNat * 256 ^ j).sum := by
  have hbyte : ∀ j ∈ List.range 8,
      (byteAt A (8 * i + j)).toNat * 256 ^ j = A[i].toNat / 256 ^ j % 256 * 256 ^ j := by
    intro j hj
    rw [List.mem_range] at hj
    have hlane : (8 * i + j) / 8 = i := by omega
    have hplace : (8 * i + j) % 8 = j := by omega
    simp only [byteAt_of_lt A (8 * i + j) (by omega), hlane, hplace, laneByte_eq_ofNat, BitVec.toNat_ofNat]
  have hlt : A[i].toNat < 256 ^ 8 := A[i].isLt
  rw [List.map_congr_left hbyte, sum_digits_256, Nat.mod_eq_of_lt hlt]

/-! ## The byte primitives (R42) -/

theorem getElem_of_xorByte {A B : Lanes} {k : Nat} {v : Byte} (h : xorByte A k v = .ok B) (i : Nat) (hi : i < 25) :
    B[i] = if i = k / 8 then A[i] ^^^ byteInLane v (k % 8) else A[i] := by
  obtain hk | hk := Nat.lt_or_ge k 200
  · rw [xorByte_of_lt A k v hk] at h
    cases h
    rw [Vector.getElem_set]
    by_cases hl : k / 8 = i
    · simp [hl]
    · simp [hl, Ne.symm hl]
  · rw [xorByte_of_ge A k v hk] at h
    cases h

/-- Settles O14: bit by bit, digit by digit, and lane by lane. -/
theorem lanesAreLittleEndianBytes : Obligations.LanesAreLittleEndianBytes :=
  ⟨getLsbD_byteAt, toNat_lane_eq_sum_bytes, fun _ _ _ _ h i hi => getElem_of_xorByte h i hi⟩

/-- Clearing byte `j` of a lane and XORing `v` there is XORing that byte's difference to `v`. -/
theorem clear_xor_byteInLane (lane : Lane) (v : Byte) (j : Nat) :
    (lane &&& ~~~(byteInLane 0xFF#8 j)) ^^^ byteInLane v j = lane ^^^ byteInLane (laneByte lane j ^^^ v) j := by
  apply BitVec.eq_of_getLsbD_eq
  intro z hz
  simp only [BitVec.getLsbD_xor, BitVec.getLsbD_and, BitVec.getLsbD_not, getLsbD_byteInLane, getLsbD_laneByte, hz,
    decide_true, Bool.true_and]
  have hones : (0xFF#8).getLsbD (z - 8 * j) = decide (z - 8 * j < 8) :=
    BitVec.getLsbD_allOnes (v := 8)
  rw [hones]
  by_cases hlow : 8 * j ≤ z
  · by_cases hhigh : z - 8 * j < 8
    · simp [hlow, hhigh, Nat.add_sub_cancel' hlow]
    · simp [hlow, hhigh]
  · simp [hlow]

/-- MemWrite is XorByte of the difference to the byte that stands there (R42). -/
theorem memWrite_eq_xorByte (A : Lanes) (k : Nat) (v : Byte) (h : k < 200) :
    memWrite A k v = xorByte A k (byteAt A k ^^^ v) := by
  rw [memWrite_of_lt A k v h, xorByte_of_lt A k _ h, byteAt_of_lt A k h, clear_xor_byteInLane]

theorem getElem_of_memWrite {A C : Lanes} {k : Nat} {v : Byte} (hk : k < 200) (h : memWrite A k v = .ok C)
    (i : Nat) (hi : i < 25) :
    C[i] = if i = k / 8 then (A[i] &&& ~~~(byteInLane 0xFF#8 (k % 8))) ^^^ byteInLane v (k % 8) else A[i] := by
  rw [memWrite_eq_xorByte A k v hk] at h
  rw [getElem_of_xorByte h i hi]
  split
  · subst i
    rw [clear_xor_byteInLane, byteAt_of_lt A k hk]
  · rfl

theorem memRead_of_xorByte_same {A B : Lanes} {k : Nat} {v : Byte} (hk : k < 200) (h : xorByte A k v = .ok B) :
    memRead B k = .ok (byteAt A k ^^^ v) := by
  rw [memRead_eq_byteAt B k hk, byteAt_xorByte h k hk, if_pos rfl]

/-- XorByte leaves every other address as it was, and those beyond the space without a byte (R40, R42). -/
theorem memRead_of_xorByte_ne {A B : Lanes} {k j : Nat} {v : Byte} (h : xorByte A k v = .ok B) (hj : j ≠ k) :
    memRead B j = memRead A j := by
  obtain hlt | hge := Nat.lt_or_ge j 200
  · rw [memRead_eq_byteAt B j hlt, memRead_eq_byteAt A j hlt, byteAt_xorByte h j hlt, if_neg hj]
  · rw [memRead_of_ge B j hge, memRead_of_ge A j hge]

theorem xorByte_xorByte_same {A B : Lanes} {k : Nat} {v : Byte} (hk : k < 200) (h : xorByte A k v = .ok B)
    (w : Byte) : xorByte B k w = xorByte A k (v ^^^ w) := by
  obtain ⟨C, hC⟩ := xorByte_ok_of_lt B k w hk
  obtain ⟨D, hD⟩ := xorByte_ok_of_lt A k (v ^^^ w) hk
  have hbytes : C = D := lanes_eq_of_byteAt fun j hj => by
    rw [byteAt_xorByte hC j hj, byteAt_xorByte h j hj, byteAt_xorByte hD j hj]
    split
    · exact BitVec.xor_assoc _ _ _
    · rfl
  rw [hC, hD, hbytes]

/-- Settles O15: MemWrite is an XorByte, so the rules of XorByte hold for both. -/
theorem xorByteAndMemWriteTouchOneByte : Obligations.XorByteAndMemWriteTouchOneByte := by
  intro A k v hk
  obtain ⟨B, hB⟩ := xorByte_ok_of_lt A k v hk
  obtain ⟨C, hC⟩ := xorByte_ok_of_lt A k (byteAt A k ^^^ v) hk
  have hW : memWrite A k v = .ok C := by rw [memWrite_eq_xorByte A k v hk, hC]
  have cancel : ∀ w : Byte, byteAt A k ^^^ (byteAt A k ^^^ w) = w := fun w => by
    rw [← BitVec.xor_assoc, BitVec.xor_self, BitVec.zero_xor]
  refine ⟨B, C, hB, hW, ?_, fun i hi => ⟨getElem_of_xorByte hB i hi, getElem_of_memWrite hk hW i hi⟩,
    memRead_of_xorByte_same hk hB, ?_, fun j hj => ⟨memRead_of_xorByte_ne hB hj, memRead_of_xorByte_ne hC hj⟩, ?_,
    xorByte_xorByte_same hk hB⟩
  · rw [memRead_of_lt A k hk, laneByte_eq_ofNat]
  · rw [memRead_of_xorByte_same hk hC, cancel]
  · rw [memWrite_eq_xorByte A k _ hk, cancel]

theorem memWrite_of_ge (A : Lanes) (k : Nat) (v : Byte) (h : 200 ≤ k) :
    memWrite A k v = .error (.noSuchStateByte k) := by simp [memWrite, Nat.not_lt.mpr h]

/-- Settles O16: one rule for each primitive. -/
theorem noByteBeyondTheState : Obligations.NoByteBeyondTheState :=
  fun A k v h => ⟨memRead_of_ge A k h, memWrite_of_ge A k v h, xorByte_of_ge A k v h⟩

/-- Settles O17: `offset` and `rate - 1` are both below `rate` (R26). -/
theorem capacityIsNeverXored : Obligations.CapacityIsNeverXored := by
  intro s A b hs hp hA k hk _
  obtain ⟨hr, -, ho⟩ := hs hp
  have hoffset : k ≠ s.offset.toNat := by omega
  have hlast : k ≠ s.rate.toNat - 1 := by omega
  obtain hA | hA := hA
  · exact memRead_of_xorByte_ne hA hoffset
  · obtain ⟨-, B, hB, hA⟩ := pad_cases hA
    rw [memRead_of_xorByte_ne hA hlast, memRead_of_xorByte_ne hB hoffset]

/-! ## The frame of every instruction (R47) -/

theorem advanceOffset_permLog_append (s : State) : ∃ calls, (advanceOffset s).permLog = s.permLog ++ calls := by
  obtain ⟨-, ht⟩ | ⟨-, ht⟩ := advanceOffset_cases s
  · exact ⟨_, by rw [ht, permute_permLog]⟩
  · exact ⟨[], by simp [ht]⟩

/-- Settles O40: each case of an instruction appends its own events and calls. -/
theorem instructionsOnlyAppendOutputs : Obligations.InstructionsOnlyAppendOutputs := by
  intro i s t h
  cases exec_effect h with
  | answersPortP S => exact ⟨rfl, rfl, ⟨[], by simp⟩, _, rfl⟩
  | fails i e => exact ⟨rfl, rfl, ⟨_, rfl⟩, [], by simp⟩
  | opens _ _ => exact ⟨rfl, rfl, ⟨_, rfl⟩, [], by simp⟩
  | @absorbs _ A _ _ =>
    obtain ⟨calls, hcalls⟩ := advanceOffset_permLog_append (setLanes A s)
    exact ⟨by simp, by simp, ⟨_, by rw [deliver_sent, advanceOffset_sent, setLanes_sent]⟩, calls, hcalls⟩
  | finalizes _ _ _ hu =>
    obtain ⟨-, -, -, -, hinputs, hdraws, ⟨bs, hsent⟩, calls, hcalls⟩ := squeeze_frame _ _ _ _ hu
    refine ⟨hinputs, hdraws, ⟨bs.map .o ++ [.s statusOk], by simp [hsent]⟩, ?_⟩
    exact ⟨_, by rw [deliver_permLog, hcalls, permute_permLog, List.append_assoc, setLanes_permLog]⟩

/-! ## A step is the presented instruction (R49) -/

theorem present_of_decode {tr : Transaction} {i : Instr} (h : decode tr = .ok i) (s : State) :
    present tr s = exec i s := by
  rw [present, h]

theorem step_of_present {s : State} {tr : Transaction} {rest : List HostInput} (h : s.inputs = .present tr :: rest) :
    step s = present tr { s with inputs := rest } := by
  rw [step, h]
  rfl

theorem step_of_no_input {s : State} (h : s.inputs = []) : step s = .next s := by
  rw [step, h]

/-- Settles O37: a step takes the transaction off, and presenting it runs the instruction it decodes to. -/
theorem stepRunsTheDecodedInstruction : Obligations.StepRunsTheDecodedInstruction :=
  ⟨fun _ _ _ _ hin hd => (step_of_present hin).trans (present_of_decode hd _), fun _ h => step_of_no_input h⟩

/-! ## The decoder reads back the encoder (R67) -/

/-- A slice of a word written as a number. -/
theorem extractLsb'_ofNat {x lo n y : Nat} (h : lo + n ≤ 32) (hy : x / 2 ^ lo % 2 ^ n = y) :
    (BitVec.ofNat 32 x).extractLsb' lo n = BitVec.ofNat n y := by
  apply BitVec.eq_of_getLsbD_eq
  intro b hb
  have h32 : b + lo < 32 := by omega
  simp only [BitVec.getLsbD_extractLsb', BitVec.getLsbD_ofNat, ← hy, Nat.testBit_mod_two_pow,
    Nat.testBit_div_two_pow, hb, h32, decide_true, Bool.true_and, Nat.add_comm lo b]

/-- `decode(encode(i)) = i` for an instruction in range (R67): each field is read back from its slice. -/
theorem decode_encode {i : Instr} (h : i.wellFormed = true) : decode (encode i) = .ok i := by
  cases i with
  | keccakf S => rfl
  | init rate delim =>
    have hr : rate < 256 := by simpa [Instr.wellFormed] using h
    have hd := delim.isLt
    rw [encode, decode]
    generalize hx : 0x01000000 + 256 * rate + delim.toNat = x
    have hop : (BitVec.ofNat 32 x).extractLsb' 24 8 = 0x01#8 := extractLsb'_ofNat (by omega) (by omega)
    have hzero : (BitVec.ofNat 32 x).extractLsb' 16 8 = 0#8 := extractLsb'_ofNat (by omega) (by omega)
    have hrate : (BitVec.ofNat 32 x).extractLsb' 8 8 = BitVec.ofNat 8 rate := extractLsb'_ofNat (by omega) (by omega)
    have hdelim : (BitVec.ofNat 32 x).extractLsb' 0 8 = BitVec.ofNat 8 delim.toNat :=
      extractLsb'_ofNat (by omega) (by omega)
    simp [decodeC, hop, hzero, hrate, hdelim, Nat.mod_eq_of_lt hr]
  | absorb byte =>
    have hb := byte.isLt
    rw [encode, decode]
    generalize hx : 0x02000000 + byte.toNat = x
    have hop : (BitVec.ofNat 32 x).extractLsb' 24 8 = 0x02#8 := extractLsb'_ofNat (by omega) (by omega)
    have hzero : (BitVec.ofNat 32 x).extractLsb' 8 16 = 0#16 := extractLsb'_ofNat (by omega) (by omega)
    have hbyte : (BitVec.ofNat 32 x).extractLsb' 0 8 = BitVec.ofNat 8 byte.toNat :=
      extractLsb'_ofNat (by omega) (by omega)
    simp [decodeC, hop, hzero, hbyte]
  | finalize outlen =>
    have hn : outlen < 16777216 := by simpa [Instr.wellFormed] using h
    rw [encode, decode]
    generalize hx : 0x03000000 + outlen = x
    have hop : (BitVec.ofNat 32 x).extractLsb' 24 8 = 0x03#8 := extractLsb'_ofNat (by omega) (by omega)
    have hlen : (BitVec.ofNat 32 x).extractLsb' 0 24 = BitVec.ofNat 24 outlen :=
      extractLsb'_ofNat (by omega) (by omega)
    simp [decodeC, hop, hlen, Nat.mod_eq_of_lt hn]
  | initv v => cases v <;> decide
  | finalv v => cases v <;> decide

/-! ## Instructions do not read what is still presented (R49) -/

/-- `s` with other inputs pending. -/
def State.withInputs (inputs : List HostInput) (s : State) : State := { s with inputs := inputs }

/-- An outcome with its next state changed by `f`. -/
def mapNext (f : State → State) : Host.Outcome State Fault Refusal → Host.Outcome State Fault Refusal
  | .next t => .next (f t)
  | .fault e => .fault e
  | .refused r => .refused r

section WithInputs

variable (ins : List HostInput) (s : State)

theorem initContext_withInputs (r : Nat) (d : Byte) :
    initContext r d (s.withInputs ins) = mapNext (State.withInputs ins) (initContext r d s) := by
  unfold initContext
  split <;> rfl

theorem advanceOffset_withInputs : advanceOffset (s.withInputs ins) = (advanceOffset s).withInputs ins := by
  have hfull : windowFull (s.withInputs ins) = windowFull s := rfl
  rw [advanceOffset, advanceOffset, hfull]
  split <;> rfl

theorem execAbsorb_withInputs (b : Byte) :
    execAbsorb b (s.withInputs ins) = mapNext (State.withInputs ins) (execAbsorb b s) := by
  by_cases hp : s.phase = .absorbing
  · have hp' : (s.withInputs ins).phase = .absorbing := hp
    cases hx : xorByte s.lanes s.offset.toNat b with
    | ok A =>
      rw [execAbsorb_of_xorByte hp hx, execAbsorb_of_xorByte hp' hx]
      exact congrArg (fun t => Host.Outcome.next (deliver statusOk t)) (advanceOffset_withInputs ins (setLanes A s))
    | error f =>
      have hx' : xorByte (s.withInputs ins).lanes (s.withInputs ins).offset.toNat b = .error f := hx
      simp [execAbsorb, hp, hp', offsetAddress, hx, hx', mapNext]
  · rw [execAbsorb_of_not_absorbing b hp, execAbsorb_of_not_absorbing b (s := s.withInputs ins) hp]
    rfl

theorem squeeze_withInputs (fuel : Nat) : ∀ (rem : Nat) (s : State),
    squeeze fuel rem (s.withInputs ins) = (squeeze fuel rem s).map (State.withInputs ins) := by
  induction fuel with
  | zero =>
    intro rem s
    rw [squeeze, squeeze]
    split <;> rfl
  | succ fuel ih =>
    intro rem s
    have hpermute : ∀ bs, permute (emit bs (s.withInputs ins)) = (permute (emit bs s)).withInputs ins := fun _ => rfl
    have hlanes : (s.withInputs ins).lanes = s.lanes := rfl
    have hrate : (s.withInputs ins).rate = s.rate := rfl
    rw [squeeze, squeeze, hlanes, hrate]
    split
    · rfl
    · cases readBlock s.lanes 0 (min rem s.rate.toNat) with
      | error f => rfl
      | ok bs =>
        simp only [hpermute, ih]
        split <;> rfl

theorem finalizeContext_withInputs (n : Nat) :
    finalizeContext n (s.withInputs ins) = mapNext (State.withInputs ins) (finalizeContext n s) := by
  have hphase : (s.withInputs ins).phase = s.phase := rfl
  have hpad : pad (s.withInputs ins) = pad s := rfl
  have hpermute : ∀ A, permute (setLanes A (s.withInputs ins)) = (permute (setLanes A s)).withInputs ins :=
    fun _ => rfl
  rw [finalizeContext, finalizeContext, hphase, hpad]
  split
  · cases pad s with
    | error f => rfl
    | ok A =>
      simp only [hpermute, squeeze_withInputs]
      cases squeeze n n (permute (setLanes A s)) <;> rfl
  · rfl

theorem exec_withInputs (i : Instr) : exec i (s.withInputs ins) = mapNext (State.withInputs ins) (exec i s) := by
  cases i with
  | keccakf S => rfl
  | init r d => exact initContext_withInputs ins s r d
  | absorb b => exact execAbsorb_withInputs ins s b
  | finalize n => exact finalizeContext_withInputs ins s n
  | initv v => exact initContext_withInputs ins s _ _
  | finalv v => exact finalizeContext_withInputs ins s _

end WithInputs

/-! ## Order (R49, R69) -/

theorem core_step : Sys2Proof.core.step = step := rfl

/-- Settles O38, by induction on the instructions: what is presented after one passes unread through its execution. -/
theorem presentedSequenceRunsInOrder : Obligations.PresentedSequenceRunsInOrder := by
  intro is
  induction is with
  | nil => intro s _; rfl
  | cons i is ih =>
    intro s hwf
    obtain ⟨hi, his⟩ := List.forall_mem_cons.mp hwf
    have hstep : step { s with inputs := presentAll (i :: is) } = exec i (s.withInputs (presentAll is)) :=
      (step_of_present rfl).trans (present_of_decode (decode_encode hi) _)
    have hexec : exec i { s with inputs := [] } = mapNext (State.withInputs []) (exec i s) := exec_withInputs [] s i
    rw [exec_withInputs] at hstep
    simp only [List.length_cons, Host.Core.run, core_step, hstep, execAll, hexec]
    cases exec i s with
    | next t => exact ih t his
    | fault f => rfl
    | refused r => rfl

end Sys2Proof.Machine

/-!
PROOFS about the encoding (spec/30_encoding.md). The decoder of port C as one row per instruction, the two directions of
encode and decode (R67), the table's masks and fields (R64); then the response to a transaction (R60, R66) and the
statuses that port S can carry.
-/

namespace Sys2Proof.Machine

/-! ## Slices of a word as numbers (R7) -/

theorem toNat_extractLsb' (W : CmdWord) (lo n : Nat) : (W.extractLsb' lo n).toNat = W.toNat / 2 ^ lo % 2 ^ n := by
  rw [BitVec.extractLsb'_toNat, Nat.shiftRight_eq_div_pow]

theorem extractLsb'_eq_ofNat_iff {W : CmdWord} {lo n y : Nat} :
    W.extractLsb' lo n = BitVec.ofNat n y ↔ W.toNat / 2 ^ lo % 2 ^ n = y % 2 ^ n := by
  rw [BitVec.toNat_eq, toNat_extractLsb', BitVec.toNat_ofNat]

theorem c_ofNat_of_eq {W : CmdWord} {x : Nat} (h : x = W.toNat) : Transaction.c (BitVec.ofNat 32 x) = .c W := by
  rw [h, BitVec.ofNat_toNat, BitVec.setWidth_eq]

/-! ## The rows of port C (R64, R67) -/

/-- `W` has the opcode and the must-be-zero bits of the row of `i`, whose operands are its fields (R64).
`decodeC_eq_ok_iff` ties it to the decoder. -/
inductive ReadsAs (W : CmdWord) : Instr → Prop
  | init (hop : W.extractLsb' 24 8 = 0x01#8) (hzero : W.extractLsb' 16 8 = 0#8) :
      ReadsAs W (.init (W.extractLsb' 8 8).toNat (W.extractLsb' 0 8))
  | absorb (hop : W.extractLsb' 24 8 = 0x02#8) (hzero : W.extractLsb' 8 16 = 0#16) :
      ReadsAs W (.absorb (W.extractLsb' 0 8))
  | finalize (hop : W.extractLsb' 24 8 = 0x03#8) : ReadsAs W (.finalize (W.extractLsb' 0 24).toNat)
  | initv (hop : W.extractLsb' 24 8 = 0x04#8) (hzero : W.extractLsb' 2 22 = 0#22) :
      ReadsAs W (.initv (variantOfBits (W.extractLsb' 0 2)))
  | finalv (hop : W.extractLsb' 24 8 = 0x05#8) (hzero : W.extractLsb' 2 22 = 0#22) :
      ReadsAs W (.finalv (variantOfBits (W.extractLsb' 0 2)))

/-- The decoder of port C answers exactly the instructions of the five rows (R64, R67). -/
theorem decodeC_eq_ok_iff {W : CmdWord} {i : Instr} : decodeC W = .ok i ↔ ReadsAs W i := by
  constructor
  · intro h
    simp only [decodeC] at h
    split at h
    case isTrue hop =>
      split at h <;> cases h
      exact .init hop ‹_›
    split at h
    case isTrue hop =>
      split at h <;> cases h
      exact .absorb hop ‹_›
    split at h
    case isTrue hop =>
      cases h
      exact .finalize hop
    split at h
    case isTrue hop =>
      split at h <;> cases h
      exact .initv hop ‹_›
    split at h
    case isTrue hop =>
      split at h <;> cases h
      exact .finalv hop ‹_›
    cases h
  · intro h
    cases h with
    | init hop hzero => simp [decodeC, hop, hzero]
    | absorb hop hzero => simp [decodeC, hop, hzero]
    | finalize hop => simp [decodeC, hop]
    | initv hop hzero => simp [decodeC, hop, hzero]
    | finalv hop hzero => simp [decodeC, hop, hzero]

theorem variantNumber_variantOfBits : ∀ v : BitVec 2, variantNumber (variantOfBits v) = v.toNat := by decide

/-- The variant of `W[1:0]` has that number (R64). -/
theorem variantNumber_field (W : CmdWord) : variantNumber (variantOfBits (W.extractLsb' 0 2)) = W.toNat % 4 := by
  rw [variantNumber_variantOfBits, toNat_extractLsb']
  omega

/-! ## Encode and decode (R67) -/

/-- Settles O1: it is the round trip proved for the order in which presented instructions run. -/
theorem decodeOfEncodeIsTheInstruction : Obligations.DecodeOfEncodeIsTheInstruction :=
  fun _ hwf => decode_encode hwf

/-- A word is put together again from its opcode, its must-be-zero bits and its fields (R62). -/
theorem encode_of_readsAs {W : CmdWord} {i : Instr} (h : ReadsAs W i) : encode i = .c W := by
  have hW := W.isLt
  cases h with
  | init hop hzero =>
    rw [extractLsb'_eq_ofNat_iff] at hop hzero
    exact c_ofNat_of_eq (by simp only [toNat_extractLsb']; omega)
  | absorb hop hzero =>
    rw [extractLsb'_eq_ofNat_iff] at hop hzero
    exact c_ofNat_of_eq (by simp only [toNat_extractLsb']; omega)
  | finalize hop =>
    rw [extractLsb'_eq_ofNat_iff] at hop
    exact c_ofNat_of_eq (by simp only [toNat_extractLsb']; omega)
  | initv hop hzero =>
    rw [extractLsb'_eq_ofNat_iff] at hop hzero
    exact c_ofNat_of_eq (by rw [variantNumber_field]; omega)
  | finalv hop hzero =>
    rw [extractLsb'_eq_ofNat_iff] at hop hzero
    exact c_ofNat_of_eq (by rw [variantNumber_field]; omega)

/-- A field's number is in the range of its width (R64). -/
theorem wellFormed_of_readsAs {W : CmdWord} {i : Instr} (h : ReadsAs W i) : i.wellFormed = true := by
  cases h with
  | init _ _ => exact decide_eq_true (W.extractLsb' 8 8).isLt
  | finalize _ => exact decide_eq_true (W.extractLsb' 0 24).isLt
  | absorb _ _ => rfl
  | initv _ _ => rfl
  | finalv _ _ => rfl

/-- Settles O2: a word by its row, a request of port P as it is. -/
theorem encodeOfDecodeIsTheTransaction : Obligations.EncodeOfDecodeIsTheTransaction := by
  intro tr i h
  cases tr with
  | c W =>
    have hrow := decodeC_eq_ok_iff.mp h
    exact ⟨encode_of_readsAs hrow, wellFormed_of_readsAs hrow⟩
  | p S =>
    cases h
    exact ⟨rfl, rfl⟩

/-! ## Masks and fields (R64) -/

/-- A slice that the mask lets through is that slice of the match. -/
theorem extractLsb'_of_and_eq {W mask pattern : CmdWord} {lo n : Nat} (h : W &&& mask = pattern)
    (hmask : mask.extractLsb' lo n = BitVec.allOnes n) : W.extractLsb' lo n = pattern.extractLsb' lo n := by
  rw [← h, BitVec.extractLsb'_and, hmask, BitVec.and_allOnes]

/-- Settles O3: the mask lets the opcode and the must-be-zero bits through, which name the row. -/
theorem opcodeTableRowsReadTheirFields : Obligations.OpcodeTableRowsReadTheirFields := by
  refine ⟨fun W h => ?_, fun W h => ?_, fun W h => ?_, fun W h => ?_, fun W h => ?_, fun S => rfl⟩
  · have hdelim : W.extractLsb' 0 8 = BitVec.ofNat 8 (W.toNat % 2 ^ 8) := extractLsb'_eq_ofNat_iff.mpr (by omega)
    rw [← toNat_extractLsb', ← hdelim]
    exact decodeC_eq_ok_iff.mpr
      (.init (extractLsb'_of_and_eq h (by decide)) (extractLsb'_of_and_eq h (by decide)))
  · have hbyte : W.extractLsb' 0 8 = BitVec.ofNat 8 (W.toNat % 2 ^ 8) := extractLsb'_eq_ofNat_iff.mpr (by omega)
    rw [← hbyte]
    exact decodeC_eq_ok_iff.mpr
      (.absorb (extractLsb'_of_and_eq h (by decide)) (extractLsb'_of_and_eq h (by decide)))
  · have hlen : (W.extractLsb' 0 24).toNat = W.toNat % 2 ^ 24 := by rw [toNat_extractLsb', pow_zero, Nat.div_one]
    rw [← hlen]
    exact decodeC_eq_ok_iff.mpr (.finalize (extractLsb'_of_and_eq h (by decide)))
  · exact ⟨_, variantNumber_field W, decodeC_eq_ok_iff.mpr
      (.initv (extractLsb'_of_and_eq h (by decide)) (extractLsb'_of_and_eq h (by decide)))⟩
  · exact ⟨_, variantNumber_field W, decodeC_eq_ok_iff.mpr
      (.finalv (extractLsb'_of_and_eq h (by decide)) (extractLsb'_of_and_eq h (by decide)))⟩

/-- Settles O5 by decoding each word. -/
theorem writtenOutWordsDecode : Obligations.WrittenOutWordsDecode := by
  unfold Obligations.WrittenOutWordsDecode
  decide +kernel

/-! ## The response to a transaction (R60, R66) -/

/-- The bytes that an instruction's status OK comes after (R66). -/
def outputLength : Instr → Nat
  | .finalize n => n
  | .finalv v => cfgOutlen v
  | _ => 0

/-- One of the four statuses (R66). -/
abbrev KnownStatus (w : StatusWord) : Prop := w = 0x00#8 ∨ w = 0x01#8 ∨ w = 0x02#8 ∨ w = 0x03#8

/-- Between `s` and `t` one response has been sent: `n` bytes and OK, or the status of an error alone (R66). -/
def RespondsWith (n : Nat) (s t : State) : Prop :=
  ∃ (bs : List Byte) (w : StatusWord), t.sent = s.sent ++ bs.map .o ++ [.s w] ∧ KnownStatus w ∧
    (w ≠ 0x00#8 → bs = []) ∧ (w = 0x00#8 → bs.length = n)

theorem errorCode_known (e : ErrorKind) : KnownStatus (errorCode e) := by
  cases e <;> decide

theorem errorCode_ne_ok (e : ErrorKind) : errorCode e ≠ 0x00#8 := by
  cases e <;> decide

theorem respondsWith_error (n : Nat) (e : ErrorKind) (s : State) : RespondsWith n s (deliver (errorCode e) s) :=
  ⟨[], errorCode e, by simp, errorCode_known e, fun _ => rfl, fun h => absurd h (errorCode_ne_ok e)⟩

theorem respondsWith_ok {bs : List Byte} {s t : State} (h : t.sent = s.sent ++ bs.map .o) :
    RespondsWith bs.length s (deliver statusOk t) :=
  ⟨bs, statusOk, by rw [deliver_sent, h], .inl rfl, fun hne => absurd rfl hne, fun _ => rfl⟩

theorem lt_of_xorByte {A B : Lanes} {k : Nat} {v : Byte} (h : xorByte A k v = .ok B) : k < 200 := by
  by_contra hk
  rw [xorByte_of_ge A k v (by omega)] at h
  cases h

/-- After a Pad that answers, Squeeze emits as many bytes as it is asked for (R102, R104): the rate is then in range. -/
theorem squeeze_sent_of_pad {n : Nat} {s u : State} {A : Lanes} (hA : pad s = .ok A)
    (hu : squeeze n n (permute (setLanes A s)) = .ok u) :
    ∃ bs : List Byte, bs.length = n ∧ u.sent = s.sent ++ bs.map .o := by
  obtain ⟨hr, B, -, hlast⟩ := pad_cases hA
  have hlt := lt_of_xorByte hlast
  rw [squeeze_eq s.rate.toNat (by omega) (by omega) n n (permute (setLanes A s)) rfl le_rfl] at hu
  cases hu
  exact ⟨_, by simp, rfl⟩

/-- Every instruction of port C that answers sends one response (R66). -/
theorem exec_respondsWith {i : Instr} {s t : State} (hi : ∀ S, i ≠ .keccakf S) (h : exec i s = .next t) :
    RespondsWith (outputLength i) s t := by
  cases exec_effect h with
  | answersPortP S => exact absurd rfl (hi S)
  | fails i e => exact respondsWith_error _ e s
  | opens hi _ =>
    obtain rfl | ⟨v, rfl, -⟩ := hi <;> exact respondsWith_ok (bs := []) (by simp)
  | absorbs _ _ => exact respondsWith_ok (bs := []) (by simp)
  | @finalizes _ _ _ u hi _ hA hu =>
    obtain ⟨bs, rfl, hsent⟩ := squeeze_sent_of_pad hA hu
    have hresponse := respondsWith_ok (t := { u with phase := .finalized }) hsent
    obtain rfl | ⟨v, rfl, hv⟩ := hi
    · exact hresponse
    · rwa [hv] at hresponse

/-! ## Every transaction is answered (R140) -/

/-- Pad answers in every context (R103): both its addresses are below 200. -/
theorem pad_answers {s : State} (hs : s.ContextInv) (hp : s.phase ≠ .idle) : ∃ A, pad s = .ok A := by
  obtain ⟨hr1, hr2, ho⟩ := hs hp
  obtain ⟨B, hB⟩ := xorByte_ok_of_lt s.lanes s.offset.toNat s.delimiter (by omega)
  obtain ⟨A, hA⟩ := xorByte_ok_of_lt B (s.rate.toNat - 1) 0x80#8 (by omega)
  have hr : s.rate.toNat ≠ 0 := by omega
  exact ⟨A, by simp [pad, lastByteAddress, offsetAddress, hr, hB, hA]⟩

theorem initContext_answers (r : Nat) (d : Byte) (s : State) : ∃ t, initContext r d s = .next t := by
  by_cases hr : 1 ≤ r ∧ r ≤ 199
  · exact ⟨_, initContext_of_legal d s hr⟩
  · exact ⟨_, initContext_of_illegal d s (by omega)⟩

theorem finalizeContext_answers (n : Nat) {s : State} (hs : s.ContextInv) : ∃ t, finalizeContext n s = .next t := by
  by_cases hp : s.phase = .absorbing
  · have hidle : s.phase ≠ .idle := by simp [hp]
    obtain ⟨hr1, hr2, -⟩ := hs hidle
    obtain ⟨A, hA⟩ := pad_answers hs hidle
    have hu := squeeze_eq s.rate.toNat hr1 (by omega) n n (permute (setLanes A s)) rfl le_rfl
    exact ⟨_, by simp only [finalizeContext, hp, if_true, hA, hu]; rfl⟩
  · exact ⟨_, finalizeContext_of_not_absorbing n hp⟩

theorem exec_answers (i : Instr) {s : State} (hs : s.ContextInv) : ∃ t, exec i s = .next t := by
  cases i with
  | keccakf S => exact ⟨_, rfl⟩
  | init r d => exact initContext_answers r d s
  | initv v => exact initContext_answers _ _ s
  | finalize n => exact finalizeContext_answers n hs
  | finalv v => exact finalizeContext_answers _ hs
  | absorb b =>
    by_cases hp : s.phase = .absorbing
    · obtain ⟨A, hA⟩ := execAbsorb_answers b hs hp
      exact ⟨_, hA⟩
    · exact ⟨_, execAbsorb_of_not_absorbing b hp⟩

theorem present_answers (tr : Transaction) {s : State} (hs : s.ContextInv) : ∃ t, present tr s = .next t := by
  cases hd : decode tr with
  | ok i => rw [present_of_decode hd]; exact exec_answers i hs
  | error e => exact ⟨deliver (errorCode .illegalCommand) s, by rw [present, hd]; rfl⟩

theorem ne_keccakf_of_readsAs {W : CmdWord} {i : Instr} (h : ReadsAs W i) (S : PermVec) : i ≠ .keccakf S := by
  rintro rfl
  cases h

/-- Settles O35: a word that decodes is answered by its instruction, an illegal one by its status. -/
theorem oneResponsePerTransaction : Obligations.OneResponsePerTransaction := by
  refine ⟨fun W s hs => ?_, fun S s => ⟨_, rfl, rfl⟩⟩
  obtain ⟨t, ht⟩ := present_answers (.c W) hs
  refine ⟨t, ht, ?_⟩
  obtain ⟨i, hd, hx⟩ | ⟨e, -, rfl⟩ := present_cases ht
  · obtain ⟨bs, w, hsent, hknown, herror, hok⟩ :=
      exec_respondsWith (ne_keccakf_of_readsAs (decodeC_eq_ok_iff.mp hd)) hx
    exact ⟨bs, w, hsent, hknown, herror, fun hw => ⟨i, hd, (hok hw).trans (by cases i <;> rfl)⟩⟩
  · exact ⟨[], 0x03#8, by simp [errorCode], by decide, fun _ => rfl, fun hw => absurd hw (by decide)⟩

/-! ## The statuses of port S (R66, U5) -/

theorem RespondsWith.statusesKnown {n : Nat} {s t : State} (h : RespondsWith n s t) (hs : s.StatusesKnown) :
    t.StatusesKnown := by
  obtain ⟨bs, w, hsent, hknown, -⟩ := h
  intro v hv
  have hmem : v ∈ statusesOf s.sent ∨ v = w := by simpa [hsent] using hv
  obtain hv | rfl := hmem
  · exact hs v hv
  · exact hknown

theorem present_statusesKnown {tr : Transaction} {s t : State} (hs : s.StatusesKnown) (h : present tr s = .next t) :
    t.StatusesKnown := by
  obtain ⟨i, -, hx⟩ | ⟨e, -, rfl⟩ := present_cases h
  · by_cases hi : ∃ S, i = .keccakf S
    · obtain ⟨S, rfl⟩ := hi
      cases hx
      exact hs
    · exact (exec_respondsWith (not_exists.mp hi) hx).statusesKnown hs
  · exact (respondsWith_error 0 _ s).statusesKnown hs

/-- Bytes are no statuses. -/
theorem emit_statusesKnown (bs : List Byte) {s : State} (hs : s.StatusesKnown) : (emit bs s).StatusesKnown := by
  simpa [State.StatusesKnown] using hs

/-- Settles O36: a transaction sends one response, and a reset no status. -/
theorem stepKeepsStatusesKnown : Obligations.StepKeepsStatusesKnown := by
  intro s t hs h
  obtain ⟨-, rfl⟩ | ⟨tr, rest, -, hx⟩ | ⟨rest, -, rfl⟩ | ⟨W, n, rest, u, -, -, rfl⟩ := step_cases h
  · exact hs
  · exact present_statusesKnown (s := { s with inputs := rest }) hs hx
  · exact hs
  · exact emit_statusesKnown _ (s := { s with inputs := rest }) hs

end Sys2Proof.Machine

/-!
PROOFS about the permutation (spec/40_permutation.md). Rotation (R80), the steps of a round (R82, R83, R85, R86) with the
constants they use (R29, R30), the two forms of rho+pi (R84), the request of KECCAKF (R88); then the log of port P, whose
calls run on from the lanes (R89).
-/

namespace Sys2Proof.Machine

/-! ## Rotation (R80) -/

theorem rotl64_zero (v : Lane) : rotl64 v 0 = v := rfl

theorem rotl64_of_pos (v : Lane) {n : Nat} (h : 1 ≤ n) : rotl64 v n = v <<< n ^^^ v >>> (64 - n) :=
  if_neg (Nat.ne_of_gt h)

/-- Bit `z` goes to bit `z + n`, around the end of the lane (R80). -/
theorem getLsbD_rotl64 (v : Lane) {n z : Nat} (hn : n < 64) (hz : z < 64) :
    (rotl64 v n).getLsbD ((z + n) % 64) = v.getLsbD z := by
  obtain rfl | hpos := Nat.eq_zero_or_pos n
  · rw [rotl64_zero, Nat.add_zero, Nat.mod_eq_of_lt hz]
  · rw [rotl64_of_pos v hpos, BitVec.getLsbD_xor, BitVec.getLsbD_shiftLeft, BitVec.getLsbD_ushiftRight]
    obtain hlow | hwrap := Nat.lt_or_ge (z + n) 64
    · have hout : v.getLsbD (64 - n + (z + n)) = false := BitVec.getLsbD_of_ge _ _ (by omega)
      simp [Nat.mod_eq_of_lt hlow, hlow, hout]
    · have hbit : (z + n) % 64 = z + n - 64 := by omega
      have hlt : z + n - 64 < n := by omega
      have hsrc : 64 - n + (z + n - 64) = z := by omega
      simp [hbit, hlt, hsrc]

/-- Settles O6: the three clauses of R80. -/
theorem rotlMovesEveryBit : Obligations.RotlMovesEveryBit := by
  intro v n hn
  refine ⟨?_, fun hpos => ?_, fun z hz => getLsbD_rotl64 v hn hz⟩
  · rintro rfl
    exact rotl64_zero v
  · rw [rotl64_of_pos v hpos, BitVec.toNat_xor, BitVec.toNat_shiftLeft, BitVec.toNat_ushiftRight, Nat.shiftLeft_eq,
      Nat.shiftRight_eq_div_pow]

/-! ## The steps of a round, lane by lane (R82, R83, R85, R86) -/

/-! A neighbour is the same whether its index is reduced before or after (R81). -/

@[simp] theorem laneXY_mod_add (A : Lanes) (x k y : Nat) : laneXY A (x % 5 + k) y = laneXY A (x + k) y := by
  rw [← laneXY_mod_left, Nat.mod_add_mod, laneXY_mod_left]

@[simp] theorem columnAt_mod_add (C : Vector Lane 5) (x k : Nat) : columnAt C (x % 5 + k) = columnAt C (x + k) := by
  simp [columnAt]

/-- Theta (R82): a lane, the parity of the column before it, and the parity of the one after it rotated by 1. -/
theorem laneXY_theta (A : Lanes) (x y : Nat) :
    laneXY (theta A) x y =
      laneXY A x y ^^^ (columnAt (columnParities A) (x + 4) ^^^ rotl64 (columnAt (columnParities A) (x + 1)) 1) := by
  simp [theta, thetaMix]

theorem getLsbD_columnAt_columnParities (A : Lanes) (c b : Nat) :
    (columnAt (columnParities A) c).getLsbD b =
      Bool.xor ((laneXY A c 0).getLsbD b) (Bool.xor ((laneXY A c 1).getLsbD b)
        (Bool.xor ((laneXY A c 2).getLsbD b) (Bool.xor ((laneXY A c 3).getLsbD b) ((laneXY A c 4).getLsbD b)))) := by
  simp [columnParities]

/-- Settles O7: bit `z` of the rotated parity is its bit `z - 1`, around the end. -/
theorem thetaMixesColumnParities : Obligations.ThetaMixesColumnParities := by
  intro A x y z _ _ hz
  have hbit : ((z + 63) % 64 + 1) % 64 = z := by omega
  have hrot := getLsbD_rotl64 (columnAt (columnParities A) (x + 1)) (n := 1) (z := (z + 63) % 64) (by omega) (by omega)
  rw [hbit] at hrot
  simp only [laneXY_theta, BitVec.getLsbD_xor, hrot, getLsbD_columnAt_columnParities, laneXY_mod_left]

/-- Rho+pi at the destination `(X, Y)` (R83). -/
theorem laneXY_rhoPi (A : Lanes) {X Y : Nat} (hX : X < 5) (hY : Y < 5) :
    laneXY (rhoPi A) X Y = rotl64 (laneXY A (X + 3 * Y) X) (rotAmount ((X + 3 * Y) % 5 + 5 * X)) := by
  rw [rhoPi, laneXY_lanesOf, Nat.mod_eq_of_lt hX, Nat.mod_eq_of_lt hY]

/-- The source of the destination `(y, 2*x + 3*y)` is `(x, y)` again, mod 5 (R83, log entry 17). -/
theorem rhoPi_source {x : Nat} (y : Nat) (hx : x < 5) : (y + 3 * ((2 * x + 3 * y) % 5)) % 5 = x := by
  omega

/-- The amounts of R30's generating walk are those of ROT. -/
theorem rotAmount_of_mem_generatedRotations : ∀ p ∈ generatedRotations 24 0 1 0, rotAmount p.1 = p.2 := by
  decide

/-- R30's generating walk visits every lane but lane 0. -/
theorem mem_map_fst_generatedRotations :
    ∀ i < 25, 1 ≤ i → i ∈ (generatedRotations 24 0 1 0).map Prod.fst := by
  decide

/-- Settles O8: the source can be told from the destination, so no two sources share one. -/
theorem rhoPiRelocatesEveryLane : Obligations.RhoPiRelocatesEveryLane := by
  refine ⟨fun A x y hx hy => ?_, fun x y x' y' hx hy hx' hy' h => ?_, rfl, rotAmount_of_mem_generatedRotations,
    fun i h1 h25 => by simpa using mem_map_fst_generatedRotations i h25 h1⟩
  · rw [laneXY_rhoPi A hy (Nat.mod_lt _ (by omega)), ← laneXY_mod_left, rhoPi_source y hx]
  · have hcolumn : y = y' := by omega
    have hrow : (2 * x + 3 * y) % 5 = (2 * x' + 3 * y') % 5 := by omega
    exact ⟨by rw [← rhoPi_source y hx, hrow, hcolumn, rhoPi_source y' hx'], hcolumn⟩

/-- Chi (R85): a lane and the two after it in its row. -/
theorem laneXY_chi (A : Lanes) (x y : Nat) :
    laneXY (chi A) x y = laneXY A x y ^^^ (~~~(laneXY A (x + 1) y) &&& laneXY A (x + 2) y) := by
  simp [chi]

/-- Settles O10: chi's lane, bit by bit. -/
theorem chiUsesTheRowBeforeTheStep : Obligations.ChiUsesTheRowBeforeTheStep := by
  intro A x y z _ _ hz
  simp [laneXY_chi, hz]

/-- Iota (R86): the round constant is XORed into lane `(0, 0)` and no other. -/
theorem laneXY_iota (A : Lanes) (ir : Nat) {x y : Nat} (hx : x < 5) (hy : y < 5) :
    laneXY (iota A ir) x y = if (x, y) = (0, 0) then laneXY A 0 0 ^^^ roundConstant ir else laneXY A x y := by
  rw [laneXY_eq_getElem _ _ _ hx hy, iota, Vector.getElem_set]
  by_cases h : (x, y) = (0, 0)
  · obtain ⟨rfl, rfl⟩ := Prod.mk.inj h
    rfl
  · have hne : 0 ≠ x + 5 * y := fun h0 => h (by simp; omega)
    rw [if_neg hne, if_neg h, laneXY_eq_getElem _ _ _ hx hy]

/-- The printed round constants are those of R29's generating rule. -/
theorem roundConstant_eq_generatedRoundConstant : ∀ ir < 24, roundConstant ir = generatedRoundConstant ir := by
  decide

/-- Settles O11: iota's lanes, and the constants. -/
theorem iotaTouchesOnlyLaneZero : Obligations.IotaTouchesOnlyLaneZero := by
  refine fun A ir hir => ⟨?_, roundConstant_eq_generatedRoundConstant ir hir, fun x y hx hy hne => ?_⟩
  · rw [laneXY_iota A ir (by omega) (by omega), if_pos rfl]
  · rw [laneXY_iota A ir hx hy, if_neg hne]

/-! ## The cycle walk of rho+pi (R84) -/

/-- The lane at a linear index, as the model's walk reads it, is the one at `(x, y)` (R8). -/
theorem laneXY_linear (A : Lanes) {x : Nat} (y : Nat) (hx : x < 5) :
    laneXY A (x + 5 * y) ((x + 5 * y) / 5) = laneXY A x y := by
  have hcolumn : (x + 5 * y) % 5 = x := by omega
  have hrow : (x + 5 * y) / 5 = y := by omega
  rw [← laneXY_mod_left, hcolumn, hrow]

/-- Lane `k` after lane `j` is set; as in the model, lane `k` is the one at `(k, k / 5)`. -/
theorem laneXY_setLane (A : Lanes) (j : Nat) (v : Lane) {k : Nat} (hk : k < 25) :
    laneXY (setLane A j v) k (k / 5) = if k = j then v else laneXY A k (k / 5) := by
  have hindex : k % 5 + 5 * (k / 5 % 5) = k := by omega
  simp [setLane, hindex]

/-- A walk leaves the lanes that it does not visit as they are. -/
theorem laneXY_walk_of_not_mem (steps : List (Nat × Nat)) {k : Nat} (hk : k < 25) : ∀ acc : Lanes × Lane,
    k ∉ steps.map Prod.fst → laneXY (steps.foldl rhoPiWalkStep acc).1 k (k / 5) = laneXY acc.1 k (k / 5) := by
  induction steps with
  | nil => intro acc _; rfl
  | cons step steps ih =>
    intro acc hmem
    obtain ⟨hne, hrest⟩ := not_or.mp (List.mem_cons.not.mp hmem)
    rw [List.foldl_cons, ih _ hrest, rhoPiWalkStep, laneXY_setLane _ _ _ hk, if_neg hne]

/-- A walk that visits no lane twice and carries lane `prev` of `A` at its start leaves in each lane it visits the lane of
`A` visited just before, rotated by the step's amount: that one is picked up before anything is written to it. -/
theorem laneXY_walk_of_mem (A : Lanes) (steps : List (Nat × Nat)) : ∀ (B : Lanes) (prev : Nat),
    (steps.map Prod.fst).Nodup → (∀ k ∈ steps.map Prod.fst, k < 25 ∧ laneXY B k (k / 5) = laneXY A k (k / 5)) →
    ∀ src dst n, (src, dst, n) ∈ (prev :: steps.map Prod.fst).zip steps →
      laneXY (steps.foldl rhoPiWalkStep (B, laneXY A prev (prev / 5))).1 dst (dst / 5) =
        rotl64 (laneXY A src (src / 5)) n := by
  induction steps with
  | nil => intro B prev _ _ src dst n hmem; cases hmem
  | cons step steps ih =>
    obtain ⟨j, amount⟩ := step
    intro B prev hnodup hB src dst n hmem
    obtain ⟨hj, hnodup⟩ := List.nodup_cons.mp hnodup
    obtain ⟨⟨hj25, hBj⟩, hB⟩ := List.forall_mem_cons.mp hB
    rw [List.foldl_cons, rhoPiWalkStep, hBj]
    obtain hfirst | hmem := List.mem_cons.mp hmem
    · cases hfirst
      rw [laneXY_walk_of_not_mem steps hj25 _ hj, laneXY_setLane _ _ _ hj25, if_pos rfl]
    · refine ih _ j hnodup (fun k hk => ?_) src dst n hmem
      obtain ⟨hk25, hBk⟩ := hB k hk
      have hne : k ≠ j := fun h => hj (h ▸ hk)
      rw [laneXY_setLane _ _ _ hk25, if_neg hne]
      exact ⟨hk25, hBk⟩

/-- The walk visits no lane twice (R30). -/
theorem walk_lanes_nodup : ((PILN.zip ROTC).map Prod.fst).Nodup := by
  decide

/-- The walk visits only lanes 1 to 24 (R30). -/
theorem walk_lanes_range : ∀ k ∈ (PILN.zip ROTC).map Prod.fst, 0 < k ∧ k < 25 := by
  decide

/-- PILN and ROTC take every lane but lane 0 to where the table form of R83 has it, by its amount. -/
theorem walk_moves_mem : ∀ X Y : Fin 5, (X.val = 0 ∧ Y.val = 0) ∨
    ((X.val + 3 * Y.val) % 5 + 5 * X.val, X.val + 5 * Y.val, rotAmount ((X.val + 3 * Y.val) % 5 + 5 * X.val)) ∈
      (1 :: (PILN.zip ROTC).map Prod.fst).zip (PILN.zip ROTC) := by
  decide

/-- Settles O9: lane 0 is not visited and has amount 0; every other destination is one step of the walk. -/
theorem rhoPiWalkEqualsTableForm : Obligations.RhoPiWalkEqualsTableForm := by
  intro A
  apply lanes_ext
  intro X Y hX hY
  rw [laneXY_rhoPi A hX hY, rhoPiWalk]
  obtain ⟨rfl, rfl⟩ | hmove := walk_moves_mem ⟨X, hX⟩ ⟨Y, hY⟩
  · exact laneXY_walk_of_not_mem (k := 0) _ (by omega) _ fun hmem => absurd (walk_lanes_range 0 hmem).1 (by omega)
  · have hwalk := laneXY_walk_of_mem A _ A 1 walk_lanes_nodup (fun k hk => ⟨(walk_lanes_range k hk).2, rfl⟩) _ _ _
      hmove
    rwa [laneXY_linear _ Y hX, laneXY_linear _ X (Nat.mod_lt _ (by omega)), laneXY_mod_left] at hwalk

/-! ## The request of KECCAKF (R48, R88) -/

theorem unpackLanes_eq_of_bits {S : PermVec} {A : Lanes}
    (h : ∀ (i : Nat) (h : i < 25) (z : Nat), z < 64 → S.getLsbD (64 * i + z) = A[i].getLsbD z) :
    unpackLanes S = A := by
  apply Vector.ext
  intro i hi
  apply BitVec.eq_of_getLsbD_eq
  intro z hz
  rw [getLsbD_unpackLanes S i hi z hz, h i hi z hz]

/-- The permutation module answers the lanes' request with the permuted lanes (R88, R89). -/
theorem permModule_packLanes (A : Lanes) : permModule (packLanes A) = packLanes (keccakF A) := by
  rw [permModule, unpackLanes_packLanes]

/-- Settles O12: the response is the permutation of the lanes that the request carries, laid out again. -/
theorem keccakfAnswersTwentyFourRounds : Obligations.KeccakfAnswersTwentyFourRounds := by
  intro S A s hS
  refine ⟨permModule S, rfl, fun i hi z hz => ?_⟩
  rw [permModule, unpackLanes_eq_of_bits hS, getLsbD_packLanes _ i hi z hz]
  rfl

/-! ## The log of port P (R88, R89) -/

/-- From `s` to `t` port P has carried calls one after the other from the lanes `A`, the last response being the lanes of
`t` (R89). `callsFrom_of_permutesFrom` ties it to `CallsFrom`. -/
def PermutesFrom (A : Lanes) (s t : State) : Prop :=
  ∃ n, t.permLog = s.permLog ++ permCalls A n ∧ t.lanes = keccakTimes n A

theorem callsFrom_of_permutesFrom {active : Prop} {start : Except Fault Lanes} {A : Lanes} {s t : State}
    (hactive : active) (hstart : start = .ok A) (h : PermutesFrom A s t) : CallsFrom active start s t := by
  obtain ⟨n, hlog, hlanes⟩ := h
  exact ⟨absurd hactive, fun _ => ⟨A, n, hstart, hlog, hlanes⟩⟩

/-- An error makes no call (R134). -/
theorem callsFrom_of_error {active : Prop} (hactive : ¬active) (start : Except Fault Lanes) (e : ErrorKind) (s : State) :
    CallsFrom active start s (deliver (errorCode e) s) :=
  ⟨fun _ => ⟨rfl, rfl⟩, fun h => absurd h hactive⟩

/-- ABSORB's end makes one call at a full window, otherwise none (R101). -/
theorem advanceOffset_permutesFrom (A : Lanes) (s : State) : PermutesFrom A s (advanceOffset (setLanes A s)) := by
  obtain ⟨-, ht⟩ | ⟨-, ht⟩ := advanceOffset_cases (setLanes A s)
  · exact ⟨1, by rw [ht]; rfl, by rw [ht]; rfl⟩
  · exact ⟨0, by rw [ht]; exact (List.append_nil _).symm, by rw [ht]; rfl⟩

/-- After Pad, FINALIZE makes one call and then those between the blocks of Squeeze (R102, R104). -/
theorem squeeze_permutesFrom {n : Nat} {s u : State} {A : Lanes} (hA : pad s = .ok A)
    (hu : squeeze n n (permute (setLanes A s)) = .ok u) : PermutesFrom A s u := by
  obtain ⟨hr, B, -, hlast⟩ := pad_cases hA
  have hlt := lt_of_xorByte hlast
  rw [squeeze_eq s.rate.toNat (by omega) (by omega) n n (permute (setLanes A s)) rfl le_rfl] at hu
  cases hu
  refine ⟨(n + s.rate.toNat - 1) / s.rate.toNat - 1 + 1, ?_, keccakTimes_keccakF _ A⟩
  rw [← permCalls_cons, ← List.append_assoc]
  rfl

theorem execAbsorb_callsFrom {b : Byte} {s t : State} (h : execAbsorb b s = .next t) :
    CallsFrom (s.phase = .absorbing) (xorByte s.lanes s.offset.toNat b) s t := by
  obtain ⟨hp, rfl⟩ | ⟨hp, A, hA, rfl⟩ := execAbsorb_cases h
  · exact callsFrom_of_error hp _ _ s
  · exact callsFrom_of_permutesFrom hp hA (advanceOffset_permutesFrom A s)

theorem finalizeContext_callsFrom {n : Nat} {s t : State} (h : finalizeContext n s = .next t) :
    CallsFrom (s.phase = .absorbing) (pad s) s t := by
  obtain ⟨hp, rfl⟩ | ⟨hp, A, u, hA, hu, rfl⟩ := finalizeContext_cases h
  · exact callsFrom_of_error hp _ _ s
  · have hcalls := squeeze_permutesFrom hA hu
    exact callsFrom_of_permutesFrom hp hA hcalls

theorem initContext_permLog {r : Nat} {d : Byte} {s t : State} (h : initContext r d s = .next t) :
    t.permLog = s.permLog := by
  obtain ⟨-, rfl⟩ | ⟨-, rfl⟩ := initContext_cases h <;> rfl

/-- Every response of calls from the lanes is the permutation of its request (R88). -/
theorem PermutesFrom.permLogRight {A : Lanes} {s t : State} (h : PermutesFrom A s t) (hs : s.PermLogRight) :
    t.PermLogRight := by
  obtain ⟨n, hlog, -⟩ := h
  intro call hcall
  obtain hcall | hcall := List.mem_append.mp (hlog ▸ hcall)
  · exact hs call hcall
  · obtain ⟨i, -, rfl⟩ := List.mem_map.mp hcall
    exact (permModule_packLanes _).symm

theorem exec_permLogRight {i : Instr} {s t : State} (hs : s.PermLogRight) (h : exec i s = .next t) :
    t.PermLogRight := by
  cases exec_effect h with
  | answersPortP S => exact List.forall_mem_append.mpr ⟨hs, List.forall_mem_singleton.mpr rfl⟩
  | fails i e => exact hs
  | opens _ _ => exact hs
  | @absorbs _ A _ _ => exact (advanceOffset_permutesFrom A s).permLogRight hs
  | finalizes _ _ hA hu =>
    have hcalls := squeeze_permutesFrom hA hu
    exact hcalls.permLogRight hs

theorem present_permLogRight {tr : Transaction} {s t : State} (hs : s.PermLogRight) (h : present tr s = .next t) :
    t.PermLogRight := by
  obtain ⟨i, -, hx⟩ | ⟨e, -, rfl⟩ := present_cases h
  · exact exec_permLogRight hs hx
  · exact hs

theorem step_permLogRight {s t : State} (hs : s.PermLogRight) (h : step s = .next t) : t.PermLogRight := by
  obtain ⟨-, rfl⟩ | ⟨tr, rest, -, hx⟩ | ⟨rest, -, rfl⟩ | ⟨W, n, rest, u, -, -, rfl⟩ := step_cases h
  · exact hs
  · exact present_permLogRight (s := { s with inputs := rest }) hs hx
  · exact hs
  · exact hs

/-- A reset makes no call, and the log says nothing of the command it abandons (log entry 9). -/
theorem step_permLog_of_reset {s t : State} {rest : List HostInput}
    (hin : s.inputs = .rst :: rest ∨ ∃ W n, s.inputs = .rstDuring W n :: rest) (h : step s = .next t) :
    t.permLog = s.permLog := by
  obtain ⟨-, rfl⟩ | ⟨tr, rest', hpresent, -⟩ | ⟨rest', -, rfl⟩ | ⟨W, n, rest', u, -, -, rfl⟩ := step_cases h
  · rfl
  · simp [hpresent] at hin
  · rfl
  · rfl

/-- Settles O46: the invariant, the calls of each instruction, and the resets. -/
theorem stepKeepsPermLogRight : Obligations.StepKeepsPermLogRight := by
  refine ⟨fun _ _ => step_permLogRight, fun i s t h => ?_, fun _ _ _ => step_permLog_of_reset⟩
  cases i with
  | keccakf S =>
    cases h
    exact ⟨_, rfl⟩
  | init r d => exact initContext_permLog h
  | initv v => exact initContext_permLog h
  | absorb b => exact execAbsorb_callsFrom h
  | finalize n => exact finalizeContext_callsFrom h
  | finalv v => exact finalizeContext_callsFrom h

end Sys2Proof.Machine

/-!
PROOFS about the sponge (spec/41_sponge.md). INIT (R100), ABSORB (R101), Pad (R103) and FINALIZE (R102, R104), one command
each; then absorption of a whole message from any context (R107), and the whole digest: how many permutations it costs
(R106), and its closed form (R105).
-/

namespace Sys2Proof.Machine

/-! ## INIT (R100) -/

/-- A legal rate fits the 8 bits of `rate` (R22). -/
theorem openContext_rate_toNat {r : Nat} (d : Byte) (s : State) (h : r ≤ 199) : (openContext r d s).rate.toNat = r :=
  (BitVec.toNat_ofNat r 8).trans (Nat.mod_eq_of_lt (by omega))

/-- Settles O18: a legal rate opens the context, an illegal one is reported. -/
theorem initOpensAFreshContext : Obligations.InitOpensAFreshContext := by
  refine fun r d s => ⟨fun h => ?_, fun h => initContext_of_illegal d s h⟩
  refine ⟨deliver statusOk (openContext r d s), initContext_of_legal d s h, openContext_rate_toNat d s h.2, ?_⟩
  rw [← zeroLanes_eq_replicate]
  rfl

/-! ## Pad (R103) -/

theorem padEffect_of_pad {s : State} {A : Lanes} (h : pad s = .ok A) : PadEffect s A := by
  obtain ⟨-, B, hB, hA⟩ := pad_cases h
  intro k hk
  rw [byteAt_xorByte hA k hk, byteAt_xorByte hB k hk]
  split <;> split <;> simp

/-- Settles O24: Pad answers in a context, and its two XORs are its whole effect. -/
theorem padXorsBothBytes : Obligations.PadXorsBothBytes := by
  intro s hs hp
  obtain ⟨A, hA⟩ := pad_answers hs hp
  exact ⟨A, hA, padEffect_of_pad hA⟩

/-! ## ABSORB (R101) -/

/-- Below the end of the window `offset + 1` fits the 8 bits of `offset` (R23). -/
theorem offset_succ_toNat {s : State} (h : s.offset.toNat < s.rate.toNat) :
    (s.offset + 1#8).toNat = s.offset.toNat + 1 := by
  have hr := s.rate.isLt
  rw [BitVec.toNat_add, BitVec.toNat_ofNat]
  omega

/-- Settles O20: XorByte fixes the lanes, and the window is full or has room for another byte. -/
theorem absorbXorsThenAdvancesOrPermutes : Obligations.AbsorbXorsThenAdvancesOrPermutes := by
  refine fun b s => ⟨fun hs hp => ?_, fun hp => execAbsorb_of_not_absorbing b hp⟩
  obtain ⟨-, hr, ho⟩ := hs (by simp [hp])
  obtain ⟨A, hA⟩ := xorByte_ok_of_lt s.lanes s.offset.toNat b (by omega)
  have hexec : exec (.absorb b) s = .next (deliver statusOk (advanceOffset (setLanes A s))) :=
    execAbsorb_of_xorByte hp hA
  refine ⟨A, fun k hk => byteAt_xorByte hA k hk, ?_⟩
  obtain ⟨hfull, hadv⟩ | ⟨hroom, hadv⟩ := advanceOffset_cases (setLanes A s)
  · exact ⟨fun _ => by rw [hexec, hadv]; rfl, absurd hfull⟩
  · exact ⟨fun hfull => absurd hfull hroom, fun _ => ⟨s.offset + 1#8, offset_succ_toNat ho, by rw [hexec, hadv]; rfl⟩⟩

/-! ## FINALIZE (R102, R104) -/

/-- The bytes squeezed after Pad are read from the permuted lanes on (R102). -/
theorem squeezedByte_eq (r : Nat) (A : Lanes) :
    squeezedByte r A = fun j => byteAt (keccakTimes (j / r) (keccakF A)) (j % r) := by
  funext j
  rw [squeezedByte, keccakTimes_keccakF, Nat.add_comm]

/-- FINALIZE on padded lanes: one permutation, and Squeeze from there. -/
theorem finalizeContext_of_pad (n : Nat) {s : State} {A : Lanes} (hp : s.phase = .absorbing) (hA : pad s = .ok A) :
    finalizeContext n s = .next (afterFinalize n A s) := by
  obtain ⟨hr, B, -, hlast⟩ := pad_cases hA
  have hlt := lt_of_xorByte hlast
  have hu := squeeze_eq s.rate.toNat (by omega) (by omega) n n (permute (setLanes A s)) rfl le_rfl
  have hperms : finalizePerms s.rate.toNat n = (n + s.rate.toNat - 1) / s.rate.toNat - 1 + 1 := Nat.add_comm ..
  rw [afterFinalize, squeezedByte_eq, hperms, ← keccakTimes_keccakF, ← permCalls_cons, ← List.append_assoc]
  simp only [finalizeContext, hp, if_true, hA, hu]
  rfl

theorem exec_finalize_afterFinalize (n : Nat) {s : State} (hs : s.ContextInv) (hp : s.phase = .absorbing) :
    ∃ A, PadEffect s A ∧ exec (.finalize n) s = .next (afterFinalize n A s) := by
  obtain ⟨A, hA⟩ := pad_answers hs (by simp [hp])
  exact ⟨A, padEffect_of_pad hA, finalizeContext_of_pad n hp hA⟩

/-- Settles O25: in ABSORBING Pad answers and Squeeze goes on from there. -/
theorem finalizePadsPermutesAndSqueezes : Obligations.FinalizePadsPermutesAndSqueezes :=
  fun n _ => ⟨exec_finalize_afterFinalize n, finalizeContext_of_not_absorbing n⟩

/-! ## The cost of a digest (R106) -/

/-- Settles O29: absorption counts its windows (R26 e), and FINALIZE makes the calls of its closed form. -/
theorem permutationCountOfADigest : Obligations.PermutationCountOfADigest := by
  intro r d m n s h1 h2
  obtain ⟨t, ht, hoffset, hcalls, hp, hrate, -⟩ := offsetCountsTheBytesAbsorbed r d m s h1 h2
  have hinv : t.ContextInv := fun _ => by
    rw [hoffset, hrate]
    exact ⟨h1, h2, Nat.mod_lt _ h1⟩
  obtain ⟨A, -, hfin⟩ := exec_finalize_afterFinalize n hinv hp
  refine ⟨t, ht, hcalls, _, hfin, ?_⟩
  simp [afterFinalize, permCalls, finalizePerms, hrate]

/-! ## A sequence in two parts (R49) -/

/-- An outcome, and what is done in its next state. -/
def andThen (o : Host.Outcome State Fault Refusal) (f : State → Host.Outcome State Fault Refusal) :
    Host.Outcome State Fault Refusal :=
  match o with
  | .next t => f t
  | .fault e => .fault e
  | .refused r => .refused r

theorem execAll_append (is js : List Instr) : ∀ s, execAll (is ++ js) s = andThen (execAll is s) (execAll js) := by
  induction is with
  | nil => intro s; rfl
  | cons i is ih =>
    intro s
    simp only [List.cons_append, execAll]
    cases exec i s with
    | next t => exact ih t
    | fault f => rfl
    | refused r => rfl

theorem execAll_cons_of_next {i : Instr} {s t : State} (is : List Instr) (h : exec i s = .next t) :
    execAll (i :: is) s = execAll is t := by
  rw [execAll, h]

/-- The UPDATEs of some chunks are the UPDATE of their concatenation (R69). -/
theorem flatten_map_updateCommands (chunks : List (List Byte)) :
    (chunks.map updateCommands).flatten = updateCommands chunks.flatten :=
  List.map_flatten.symm

/-! ## The windows of an absorption (R101) -/

/-- The lanes in window `j` with all its bytes XORed in, before they are permuted. -/
def filledWindow (r o : Nat) (m : List Byte) (A : Lanes) (j : Nat) : Lanes :=
  xorLanes (absorbedWindows r o m A j) (lanesOfBytes (windowByte r o m j))

theorem absorbedWindows_succ (r o : Nat) (m : List Byte) (A : Lanes) (j : Nat) :
    absorbedWindows r o m A (j + 1) = keccakF (filledWindow r o m A j) := rfl

theorem byteAt_filledWindow (r o : Nat) (m : List Byte) (A : Lanes) (j : Nat) {k : Nat} (hk : k < 200) :
    byteAt (filledWindow r o m A j) k = byteAt (absorbedWindows r o m A j) k ^^^ windowByte r o m j k := by
  rw [filledWindow, byteAt_xorLanes _ _ k hk, byteAt_lanesOfBytes _ k hk]

/-- With no byte to come, the window in progress is as it stands. -/
theorem filledWindow_nil (r o : Nat) (A : Lanes) : filledWindow r o [] A 0 = A :=
  lanes_eq_of_byteAt fun k hk => by simp [byteAt_filledWindow r o [] A 0 hk, absorbedWindows, windowByte]

/-- The first byte `b` goes to the address of offset `o`, and the rest of the message behind it. -/
theorem windowByte_cons (r o : Nat) (b : Byte) (m : List Byte) (j k : Nat) :
    windowByte r o (b :: m) j k = (if k < r ∧ j * r + k = o then b else 0#8) ^^^ windowByte r (o + 1) m j k := by
  unfold windowByte
  generalize j * r + k = p
  obtain hlt | rfl | hgt := Nat.lt_trichotomy p o
  · simp [Nat.not_le.mpr hlt, Nat.lt_asymm hlt, hlt.ne]
  · simp
  · have hsub : p - o = p - (o + 1) + 1 := by omega
    simp [hgt, hgt.le, hgt.ne', hsub]

/-- Counting from one window further on. -/
theorem windowByte_add_rate (r o : Nat) (m : List Byte) (j k : Nat) :
    windowByte r (o + r) m (j + 1) k = windowByte r o m j k := by
  have hpos : (j + 1) * r + k = j * r + k + r := by rw [Nat.succ_mul]; omega
  simp only [windowByte, hpos, Nat.add_le_add_iff_right, Nat.add_sub_add_right]

/-- Absorbing `b` and then `m` fills the windows that `b :: m` fills; the last byte of a window counts with it. -/
theorem filledWindow_cons {r o : Nat} (ho : o < r) {A B : Lanes} {b : Byte} (hB : xorByte A o b = .ok B) (m : List Byte)
    (j : Nat) : filledWindow r (o + 1) m B j = filledWindow r o (b :: m) A j := by
  apply lanes_eq_of_byteAt
  intro k hk
  rw [byteAt_filledWindow _ _ _ _ _ hk, byteAt_filledWindow _ _ _ _ _ hk, windowByte_cons, ← BitVec.xor_assoc]
  congr 1
  cases j with
  | zero =>
    rw [absorbedWindows, absorbedWindows, byteAt_xorByte hB k hk]
    by_cases hko : k = o
    · simp [hko, ho]
    · simp [hko]
  | succ j =>
    have hpos : (j + 1) * r + k ≠ o := by rw [Nat.succ_mul]; omega
    simp [absorbedWindows_succ, filledWindow_cons ho hB m j, hpos]

/-- At the end of a window nothing more is XORed into it. -/
theorem filledWindow_rate_zero (r : Nat) (m : List Byte) (A : Lanes) : filledWindow r r m A 0 = A := by
  refine lanes_eq_of_byteAt fun k hk => ?_
  have : ¬(k < r ∧ r ≤ k) := by omega
  simp [byteAt_filledWindow r r m A 0 hk, absorbedWindows, windowByte, this]

/-- Going on behind a full window is starting at offset 0 from the permuted lanes. -/
theorem filledWindow_rate_succ (r : Nat) (m : List Byte) (A : Lanes) (j : Nat) :
    filledWindow r r m A (j + 1) = filledWindow r 0 m (keccakF A) j := by
  have hlanes : absorbedWindows r r m A (j + 1) = absorbedWindows r 0 m (keccakF A) j := by
    cases j with
    | zero => rw [absorbedWindows_succ, filledWindow_rate_zero]; rfl
    | succ j => rw [absorbedWindows_succ, absorbedWindows_succ, filledWindow_rate_succ r m A j]
  have hbytes := windowByte_add_rate r 0 m j
  rw [Nat.zero_add] at hbytes
  rw [filledWindow, filledWindow, hlanes, funext hbytes]

/-! ## Absorption from any context (R101, R107) -/

/-- The calls of port P for the first `n` windows (R89). -/
def windowCalls (r o : Nat) (m : List Byte) (A : Lanes) (n : Nat) : List PermCall :=
  (List.range n).map fun j =>
    { request := packLanes (filledWindow r o m A j), response := packLanes (keccakF (filledWindow r o m A j)) }

theorem afterAbsorb_eq (m : List Byte) (o : BitVec 8) (s : State) :
    afterAbsorb m o s =
      { s with
        lanes := filledWindow s.rate.toNat s.offset.toNat m s.lanes ((s.offset.toNat + m.length) / s.rate.toNat)
        offset := o
        permLog := s.permLog ++
          windowCalls s.rate.toNat s.offset.toNat m s.lanes ((s.offset.toNat + m.length) / s.rate.toNat)
        sent := s.sent ++ List.replicate m.length (.s 0x00#8) } := rfl

theorem windowCalls_cons {r o : Nat} (ho : o < r) {A B : Lanes} {b : Byte} (hB : xorByte A o b = .ok B) (m : List Byte)
    (n : Nat) : windowCalls r (o + 1) m B n = windowCalls r o (b :: m) A n := by
  simp only [windowCalls, filledWindow_cons ho hB m]

theorem windowCalls_rate_succ (r : Nat) (m : List Byte) (A : Lanes) (n : Nat) :
    windowCalls r r m A (n + 1) =
      { request := packLanes A, response := packLanes (keccakF A) } :: windowCalls r 0 m (keccakF A) n := by
  simp only [windowCalls, List.range_succ_eq_map, List.map_cons, List.map_map, filledWindow_rate_zero]
  refine congrArg _ (List.map_congr_left fun j _ => ?_)
  simp only [Function.comp, Nat.succ_eq_add_one, filledWindow_rate_succ]

theorem afterAbsorb_nil (s : State) (h : s.offset.toNat < s.rate.toNat) : afterAbsorb [] s.offset s = s := by
  simp [afterAbsorb_eq, Nat.div_eq_of_lt h, filledWindow_nil, windowCalls]

/-- Absorbing `b` and then `m` leaves what absorbing `b :: m` leaves. -/
theorem afterAbsorb_cons {s : State} (ho : s.offset.toNat < s.rate.toNat) {b : Byte} {B : Lanes}
    (hB : xorByte s.lanes s.offset.toNat b = .ok B) (m : List Byte) (o : BitVec 8) :
    afterAbsorb m o (deliver statusOk (advanceOffset (setLanes B s))) = afterAbsorb (b :: m) o s := by
  have hlen : s.offset.toNat + (b :: m).length = s.offset.toNat + 1 + m.length := by
    rw [List.length_cons]; omega
  rw [afterAbsorb_eq (b :: m), hlen, ← filledWindow_cons ho hB, ← windowCalls_cons ho hB]
  obtain ⟨hfull, ht⟩ | ⟨hroom, ht⟩ := advanceOffset_cases (setLanes B s)
  · rw [ht]
    simp only [setLanes_offset, setLanes_rate] at hfull
    rw [hfull, Nat.add_comm s.rate.toNat, Nat.add_div_right _ (by omega), filledWindow_rate_succ, windowCalls_rate_succ]
    simp [afterAbsorb_eq, List.replicate_succ, statusOk]
  · rw [ht]
    simp [afterAbsorb_eq, List.replicate_succ, statusOk, offset_succ_toNat ho]

/-- Absorbing a message in an ABSORBING context, by induction on its bytes. -/
theorem execAll_updateCommands (m : List Byte) : ∀ s : State, s.ContextInv → s.phase = .absorbing →
    ∃ o : BitVec 8, o.toNat = (s.offset.toNat + m.length) % s.rate.toNat ∧
      execAll (updateCommands m) s = .next (afterAbsorb m o s) := by
  induction m with
  | nil =>
    intro s hs hp
    obtain ⟨-, -, ho⟩ := hs (by simp [hp])
    exact ⟨s.offset, (Nat.mod_eq_of_lt ho).symm, by rw [afterAbsorb_nil s ho]; rfl⟩
  | cons b m ih =>
    intro s hs hp
    obtain ⟨-, hr, ho⟩ := hs (by simp [hp])
    obtain ⟨B, hB⟩ := xorByte_ok_of_lt s.lanes s.offset.toNat b (by omega)
    have hexec : exec (.absorb b) s = .next (deliver statusOk (advanceOffset (setLanes B s))) :=
      execAbsorb_of_xorByte hp hB
    obtain ⟨o, ho', ht⟩ := ih _ (exec_contextInv hs hexec) (by simp [hp])
    refine ⟨o, ?_, ?_⟩
    · rw [ho', deliver_offset, deliver_rate, advanceOffset_rate, advanceOffset_offset (s := setLanes B s) ho,
        setLanes_rate, setLanes_offset, Nat.mod_add_mod, List.length_cons, Nat.add_assoc, Nat.add_comm 1]
    · rw [← afterAbsorb_cons ho hB, ← ht]
      exact execAll_cons_of_next _ hexec

/-- Settles O51: the chunks' UPDATEs are one UPDATE of their concatenation. -/
theorem absorptionDependsOnTheConcatenation : Obligations.AbsorptionDependsOnTheConcatenation := by
  intro chunks s hs hp
  rw [flatten_map_updateCommands]
  exact execAll_updateCommands chunks.flatten s hs hp

/-! ## The closed form of a digest (R105) -/

/-- Absorption from the zero lanes at offset 0 chains the blocks before the last one. -/
theorem absorbedWindows_zeroLanes (r : Nat) (d : Byte) (m : List Byte) :
    ∀ j ≤ m.length / r, absorbedWindows r 0 m zeroLanes j = chained r d m j
  | 0, _ => rfl
  | j + 1, hj => by
    have hblock : windowByte r 0 m j = blockByte r d m j := by
      have : j ≠ m.length / r := by omega
      funext k
      simp [windowByte, blockByte, this]
    rw [absorbedWindows, chained, absorbedWindows_zeroLanes r d m j (by omega), hblock]

/-- Pad completes the last block of the message, in a context that was absorbed from the zero lanes (R103, R105). -/
theorem keccakF_padded {s : State} {m : List Byte} {o : BitVec 8} {A : Lanes} (hlanes : s.lanes = zeroLanes)
    (hoffset : s.offset.toNat = 0) (ho : o.toNat = m.length % s.rate.toNat) (hA : PadEffect (afterAbsorb m o s) A) :
    keccakF A = chained s.rate.toNat s.delimiter m (m.length / s.rate.toNat + 1) := by
  rw [chained]
  refine congrArg keccakF (lanes_eq_of_byteAt fun k hk => ?_)
  have hchain := absorbedWindows_zeroLanes s.rate.toNat s.delimiter m _ le_rfl
  have hlast := hA k hk
  simp only [afterAbsorb_eq, hlanes, hoffset, Nat.zero_add, byteAt_filledWindow _ _ _ _ _ hk, hchain, ho] at hlast
  rw [hlast, byteAt_xorLanes _ _ k hk, byteAt_lanesOfBytes _ k hk]
  simp [windowByte, blockByte, BitVec.xor_assoc]

theorem squeezedByte_of_chained {r : Nat} {d : Byte} {m : List Byte} {A : Lanes}
    (h : keccakF A = chained r d m (m.length / r + 1)) : squeezedByte r A = digestByte r d m := by
  rw [squeezedByte_eq, h]
  rfl

theorem afterAbsorb_contextInv {s : State} (hs : s.ContextInv) {m : List Byte} {o : BitVec 8}
    (ho : o.toNat = (s.offset.toNat + m.length) % s.rate.toNat) : (afterAbsorb m o s).ContextInv := by
  intro hp
  obtain ⟨hr1, hr2, -⟩ := hs hp
  exact ⟨hr1, hr2, ho ▸ Nat.mod_lt _ hr1⟩

/-- INIT, the ABSORBs of `m` and FINALIZE answer in every state: a fresh context, the message absorbed in it, and the
blocks squeezed from its padded lanes. -/
theorem execAll_digest {r : Nat} (d : Byte) (m : List Byte) (n : Nat) (s : State) (h : 1 ≤ r ∧ r ≤ 199) :
    ∃ (o : BitVec 8) (A : Lanes), o.toNat = m.length % r ∧ keccakF A = chained r d m (m.length / r + 1) ∧
      execAll (.init r d :: (updateCommands m ++ [.finalize n])) s =
        .next (afterFinalize n A (afterAbsorb m o (deliver statusOk (openContext r d s)))) := by
  have hinit : exec (.init r d) s = .next (deliver statusOk (openContext r d s)) := initContext_of_legal d s h
  have hrate : (deliver statusOk (openContext r d s)).rate.toNat = r := openContext_rate_toNat d s h.2
  have hinv : (deliver statusOk (openContext r d s)).ContextInv := openContext_contextInv d s h
  obtain ⟨o, ho, habs⟩ := execAll_updateCommands m _ hinv rfl
  obtain ⟨A, hA, hfin⟩ := exec_finalize_afterFinalize n (afterAbsorb_contextInv hinv ho) rfl
  have hmod : o.toNat = m.length % (deliver statusOk (openContext r d s)).rate.toNat := by simpa using ho
  have hlanes := keccakF_padded rfl rfl hmod hA
  rw [hrate] at hmod hlanes
  refine ⟨o, A, hmod, hlanes, ?_⟩
  rw [execAll_cons_of_next _ hinit, execAll_append, habs, andThen, execAll_cons_of_next _ hfin]
  rfl

theorem bytesOf_replicate_status (n : Nat) (w : StatusWord) : bytesOf (List.replicate n (.s w)) = [] := by
  simp [bytesOf]

theorem statusesOf_replicate_status (n : Nat) (w : StatusWord) :
    statusesOf (List.replicate n (.s w)) = List.replicate n w := by
  simp [statusesOf]

/-- Settles O30: the statuses of INIT and of the ABSORBs, the squeezed bytes, and the status of FINALIZE. -/
theorem digestClosedForm : Obligations.DigestClosedForm := by
  intro r d m n s h1 h2
  obtain ⟨o, A, -, hlanes, hexec⟩ := execAll_digest d m n s ⟨h1, h2⟩
  have hrate : (afterAbsorb m o (deliver statusOk (openContext r d s))).rate.toNat = r := openContext_rate_toNat d s h2
  refine ⟨_, hexec, ?_⟩
  rw [afterFinalize, hrate, squeezedByte_of_chained hlanes]
  simp only [afterAbsorb_eq, deliver_sent, openContext_sent, List.append_assoc, List.drop_left, bytesOf_append,
    bytesOf_status, bytesOf_replicate_status, bytesOf_bytes, statusesOf_append, statusesOf_status,
    statusesOf_replicate_status, statusesOf_bytes, List.nil_append, List.append_nil]
  exact ⟨trivial, by rw [← List.replicate_succ']; rfl⟩

/-- Settles O23: the UPDATEs of chunks are one UPDATE, and the digest is its closed form. -/
theorem absorptionIsChunkIndependent : Obligations.AbsorptionIsChunkIndependent := by
  refine ⟨fun c1 c2 s => ?_, fun r d chunks n s h1 h2 => ?_⟩
  · rw [updateCommands, List.map_append]
    exact execAll_append _ _ s
  · rw [flatten_map_updateCommands]
    obtain ⟨t, ht, hbytes, -⟩ := digestClosedForm r d chunks.flatten n s h1 h2
    exact ⟨t, ht, hbytes⟩

end Sys2Proof.Machine

/-!
PROOFS about the errors (spec/60_exceptions.md). No step stops the machine (R140); which words are illegal (R65, R133),
which commands are a misuse (R132), and that a command which ends with an error has done nothing else (R134).
-/

namespace Sys2Proof.Machine

/-! ## No failure beyond the statuses (R140) -/

/-- Every input is carried out (R140); a reset inside a command abandons a command that would have been answered. -/
theorem takeInput_answers (input : HostInput) {s : State} (hs : s.ContextInv) : ∃ t, takeInput input s = .next t := by
  cases input with
  | present tr => exact present_answers tr hs
  | rst => exact ⟨resetEvent s, rfl⟩
  | rstDuring W n =>
    obtain ⟨u, hu⟩ := present_answers (.c W) hs
    exact ⟨_, by rw [takeInput, presentUntilReset, hu]⟩

theorem step_answers {s : State} (hs : s.ContextInv) : ∃ t, step s = .next t := by
  cases hin : s.inputs with
  | nil => exact ⟨s, step_of_no_input hin⟩
  | cons input rest =>
    obtain ⟨t, ht⟩ := takeInput_answers input (s := { s with inputs := rest }) hs
    exact ⟨t, by rw [step, hin]; exact ht⟩

/-- Settles O45: a step answers, and what it answers keeps the invariant (R26). -/
theorem stepNeverStops : Obligations.StepNeverStops := by
  intro s hs
  obtain ⟨t, ht⟩ := step_answers hs
  exact ⟨t, ht, stepKeepsContextInvariant s t hs ht⟩

/-! ## IllegalCommand (R65, R133) -/

/-- The cases (a) to (d) of R65, on the word as a number. `exists_readsAs_iff` ties it to the rows of the decoder. -/
abbrev ReservedWord (W : CmdWord) : Prop :=
  let op := W.toNat / 2 ^ 24
  op = 0x00 ∨ 0x06 ≤ op ∨ (op = 0x01 ∧ W.toNat / 2 ^ 16 % 2 ^ 8 ≠ 0) ∨
    (op = 0x02 ∧ W.toNat / 2 ^ 8 % 2 ^ 16 ≠ 0) ∨ ((op = 0x04 ∨ op = 0x05) ∧ W.toNat / 2 ^ 2 % 2 ^ 22 ≠ 0)

/-- The five rows and the reserved cases share out all words (R65). -/
theorem exists_readsAs_iff {W : CmdWord} : (∃ i, ReadsAs W i) ↔ ¬ReservedWord W := by
  have hW := W.isLt
  constructor
  · rintro ⟨i, h⟩
    cases h with
    | finalize hop =>
      rw [extractLsb'_eq_ofNat_iff] at hop
      omega
    | init hop hzero | absorb hop hzero | initv hop hzero | finalv hop hzero =>
      rw [extractLsb'_eq_ofNat_iff] at hop hzero
      omega
  · intro h
    have hrow : (W.toNat / 2 ^ 24 = 1 ∧ W.toNat / 2 ^ 16 % 2 ^ 8 = 0) ∨
        (W.toNat / 2 ^ 24 = 2 ∧ W.toNat / 2 ^ 8 % 2 ^ 16 = 0) ∨ W.toNat / 2 ^ 24 = 3 ∨
        (W.toNat / 2 ^ 24 = 4 ∧ W.toNat / 2 ^ 2 % 2 ^ 22 = 0) ∨
        (W.toNat / 2 ^ 24 = 5 ∧ W.toNat / 2 ^ 2 % 2 ^ 22 = 0) := by omega
    have hop {n : Nat} (hn : W.toNat / 2 ^ 24 = n) : W.extractLsb' 24 8 = BitVec.ofNat 8 n :=
      extractLsb'_eq_ofNat_iff.mpr (by rw [hn])
    obtain ⟨h1, hzero⟩ | ⟨h2, hzero⟩ | h3 | ⟨h4, hzero⟩ | ⟨h5, hzero⟩ := hrow
    · exact ⟨_, .init (hop h1) (extractLsb'_eq_ofNat_iff.mpr hzero)⟩
    · exact ⟨_, .absorb (hop h2) (extractLsb'_eq_ofNat_iff.mpr hzero)⟩
    · exact ⟨_, .finalize (hop h3)⟩
    · exact ⟨_, .initv (hop h4) (extractLsb'_eq_ofNat_iff.mpr hzero)⟩
    · exact ⟨_, .finalv (hop h5) (extractLsb'_eq_ofNat_iff.mpr hzero)⟩

theorem exists_decode_iff {W : CmdWord} : (∃ i, decode (.c W) = .ok i) ↔ ¬ReservedWord W :=
  (exists_congr fun _ => decodeC_eq_ok_iff).trans exists_readsAs_iff

theorem present_of_reserved {W : CmdWord} (h : ReservedWord W) (s : State) :
    present (.c W) s = raise .illegalCommand s := by
  cases hd : decode (.c W) with
  | ok i => exact absurd h (exists_decode_iff.mp ⟨i, hd⟩)
  | error e => rw [present, hd]

/-- Settles O4: a reserved word is presented and raised, and any other word belongs to a row. -/
theorem illegalWordsAreExactlyTheReservedOnes : Obligations.IllegalWordsAreExactlyTheReservedOnes :=
  fun _ => ⟨fun hreserved _ _ hin => (step_of_present hin).trans (present_of_reserved hreserved _), exists_decode_iff.mpr⟩

/-! ## Misuse (R132) -/

/-- The operation of INIT and INITV ends with OK or INVALID_RATE. -/
theorem initContext_sent_ne_misuse {r : Nat} {d : Byte} {s t : State} (h : initContext r d s = .next t) :
    t.sent ≠ s.sent ++ [.s 0x02#8] := by
  obtain ⟨-, rfl⟩ | ⟨-, rfl⟩ := initContext_cases h
  · simp [statusOk]
  · simp [errorCode]

/-- Settles O21: outside ABSORBING the two operations raise MISUSE at once, and opening a context never does. -/
theorem misuseOutsideAbsorbing : Obligations.MisuseOutsideAbsorbing :=
  ⟨fun _ hp => ⟨fun b => execAbsorb_of_not_absorbing b hp, fun n => finalizeContext_of_not_absorbing n hp,
      fun v => finalizeContext_of_not_absorbing (cfgOutlen v) hp⟩,
    fun _ _ _ _ _ h => h.elim initContext_sent_ne_misuse initContext_sent_ne_misuse⟩

/-! ## An error changes nothing (R134) -/

/-- What the status tells: an error was raised on the state as it was, or the last thing delivered is OK. -/
theorem present_error_or_ok {W : CmdWord} {s t : State} (h : present (.c W) s = .next t) :
    (∃ e, t = deliver (errorCode e) s) ∨ ∃ u, t = deliver statusOk u := by
  obtain ⟨i, hd, hx⟩ | ⟨-, -, rfl⟩ := present_cases h
  · cases exec_effect hx with
    | answersPortP S => exact absurd rfl (ne_keccakf_of_readsAs (decodeC_eq_ok_iff.mp hd) S)
    | fails i e => exact .inl ⟨e, rfl⟩
    | opens _ _ => exact .inr ⟨_, rfl⟩
    | absorbs _ _ => exact .inr ⟨_, rfl⟩
    | finalizes _ _ _ _ => exact .inr ⟨_, rfl⟩
  · exact .inl ⟨_, rfl⟩

/-- One status is delivered, the last event sent: what is sent fixes it and what came before it (R60). -/
theorem deliver_sent_inj {v w : StatusWord} {u : State} {before : List PortEvent}
    (h : (deliver v u).sent = before ++ [.s w]) : u.sent = before ∧ v = w := by
  simpa using h

/-- Settles O34: OK excluded, the status is an error's, and nothing was sent before it. -/
theorem errorsChangeNothing : Obligations.ErrorsChangeNothing := by
  intro W s t bs w h hsent hw
  obtain ⟨e, rfl⟩ | ⟨u, rfl⟩ := present_error_or_ok h
  · obtain ⟨hbytes, rfl⟩ := deliver_sent_inj hsent
    exact ⟨by simpa using hbytes, rfl⟩
  · obtain ⟨-, rfl⟩ := deliver_sent_inj hsent
    exact absurd rfl hw

end Sys2Proof.Machine

/-!
PROOFS about reset and hazards (spec/70_reset_and_hazards.md). Reset between commands and inside one (R150), the single
FINALIZE of a context (R152), shorter outputs as beginnings of longer ones (R153), every pairing of the rows (R155), and
the observable result of a run of words (R160).
-/

namespace Sys2Proof.Machine

/-! ## Reset (R150) -/

theorem step_of_rst {s : State} {rest : List HostInput} (h : s.inputs = .rst :: rest) :
    step s = .next (resetEvent { s with inputs := rest }) := by
  rw [step, h]
  rfl

/-- Settles O48: the reset event writes registers only. -/
theorem resetEventReturnsToIdle : Obligations.ResetEventReturnsToIdle :=
  fun _ _ hin => ⟨_, step_of_rst hin, rfl, rfl, rfl, rfl⟩

theorem step_of_rstDuring {s u : State} {W : CmdWord} {n : Nat} {rest : List HostInput}
    (h : s.inputs = .rstDuring W n :: rest) (hu : present (.c W) { s with inputs := rest } = .next u) :
    step s =
      .next (resetEvent (emit ((bytesOf (u.sent.drop s.sent.length)).take n) { s with inputs := rest })) := by
  rw [step, h]
  simp only [takeInput, presentUntilReset, hu]

/-- The bytes of a response are read back from what was sent since (R66). -/
theorem bytesOf_drop_response {sent before : List PortEvent} {bs : List Byte} {w : StatusWord}
    (h : sent = before ++ bs.map .o ++ [.s w]) : bytesOf (sent.drop before.length) = bs := by
  rw [h, List.append_assoc, List.drop_left, bytesOf_append, bytesOf_bytes, bytesOf_status, List.append_nil]

/-- Settles O49: the abandoned command would have sent one response, and the first `n` of its bytes stay. -/
theorem resetInsideACommandAbandonsIt : Obligations.ResetInsideACommandAbandonsIt := by
  intro s W n rest hs hin
  obtain ⟨u, hu, bs, w, hsent, -⟩ := oneResponsePerTransaction.1 W { s with inputs := rest } hs
  have hstep := step_of_rstDuring hin hu
  rw [bytesOf_drop_response hsent] at hstep
  exact ⟨_, hstep, rfl, rfl, rfl, u, hu, bs, w, hsent, rfl⟩

/-! ## One FINALIZE per context (R152), and its output (R153) -/

/-- In ABSORBING a FINALIZE that answers has squeezed from the padded lanes (R102). -/
theorem eq_afterFinalize_of_finalizeContext {n : Nat} {s t : State} (hp : s.phase = .absorbing)
    (h : finalizeContext n s = .next t) : ∃ A, pad s = .ok A ∧ t = afterFinalize n A s := by
  obtain ⟨hne, -⟩ | ⟨-, A, -, hA, -⟩ := finalizeContext_cases h
  · exact absurd hp hne
  · rw [finalizeContext_of_pad n hp hA] at h
    cases h
    exact ⟨A, hA, rfl⟩

theorem bytesOf_afterFinalize (n : Nat) (A : Lanes) (s : State) :
    bytesOf ((afterFinalize n A s).sent.drop s.sent.length) = (List.range n).map (squeezedByte s.rate.toNat A) :=
  bytesOf_drop_response rfl

/-- Settles O27: both squeeze from the same padded lanes, and output byte `j` does not depend on the length. -/
theorem shorterOutputIsTheBeginningOfLonger : Obligations.ShorterOutputIsTheBeginningOfLonger := by
  intro a b s t u hab hp ht hu
  obtain ⟨A, hA, rfl⟩ := eq_afterFinalize_of_finalizeContext hp ht
  obtain ⟨B, hB, rfl⟩ := eq_afterFinalize_of_finalizeContext hp hu
  obtain rfl : A = B := Except.ok.inj (hA.symm.trans hB)
  rw [bytesOf_afterFinalize, bytesOf_afterFinalize, ← List.map_take, List.take_range, Nat.min_eq_left hab]

/-- Settles O28: the context is FINALIZED, where the three commands are a misuse (R132). -/
theorem finalizeIsSingleShot : Obligations.FinalizeIsSingleShot := by
  intro i s t hi hp h j hj
  have hrun : ∃ n, finalizeContext n s = .next t := by
    obtain ⟨n, rfl⟩ | ⟨v, rfl⟩ := hi
    · exact ⟨n, h⟩
    · exact ⟨cfgOutlen v, h⟩
  obtain ⟨n, hn⟩ := hrun
  obtain ⟨A, -, rfl⟩ := eq_afterFinalize_of_finalizeContext hp hn
  have hphase : (afterFinalize n A s).phase ≠ .absorbing := by simp [afterFinalize]
  obtain ⟨habsorb, hfinalize, hfinalv⟩ := misuseOutsideAbsorbing.1 (afterFinalize n A s) hphase
  obtain ⟨b, rfl⟩ | ⟨n, rfl⟩ | ⟨v, rfl⟩ := hj
  · exact habsorb b
  · exact hfinalize n
  · exact hfinalv v

/-! ## The pairings of the rows (R155) -/

theorem cfgRate_legal (v : Variant) : 1 ≤ cfgRate v ∧ cfgRate v ≤ 199 := by
  cases v <;> decide

/-- The longest output of a row, 64 bytes, fits the smallest window of a row, 72 bytes (R31). -/
theorem cfgOutlen_le_cfgRate (v w : Variant) : cfgOutlen w ≤ cfgRate v := by
  have hout : cfgOutlen w ≤ 64 := by cases w <;> decide
  have hrate : 72 ≤ cfgRate v := by cases v <;> decide
  omega

/-- An output of at most one block costs the permutation after Pad alone (R106). -/
theorem finalizePerms_of_le {r n : Nat} (hr : 1 ≤ r) (h : n ≤ r) : finalizePerms r n = 1 := by
  have hblocks : (n + r - 1) / r < 2 := Nat.div_lt_of_lt_mul (by omega)
  rw [finalizePerms]
  omega

/-- Settles O33: INITV is INIT of its row, so absorption counts its windows (R26 e); FINALV squeezes one block of it. -/
theorem everyRowPairingIsOneBlock : Obligations.EveryRowPairingIsOneBlock := by
  intro v w m s
  obtain ⟨hr1, hr2⟩ := cfgRate_legal v
  obtain ⟨t, ht, hoffset, hcalls, hp, hrate, -⟩ := offsetCountsTheBytesAbsorbed (cfgRate v) cfgDelim m s hr1 hr2
  have hinv : t.ContextInv := fun _ => by
    rw [hoffset, hrate]
    exact ⟨hr1, hr2, Nat.mod_lt _ hr1⟩
  obtain ⟨A, -, hfin⟩ := exec_finalize_afterFinalize (cfgOutlen w) hinv hp
  have hperms := finalizePerms_of_le hr1 (cfgOutlen_le_cfgRate v w)
  refine ⟨t, ht, hcalls, _, hfin, ?_, ?_⟩
  · rw [bytesOf_afterFinalize, List.length_map, List.length_range]
  · simp [afterFinalize, permCalls, hrate, hperms]

/-! ## A run of words (R160) -/

/-- A run has one response per status (R66), whatever bytes are still pending. -/
theorem length_responsesFrom (events : List PortEvent) : ∀ pending : List Byte,
    (responsesFrom pending events).length = (statusesOf events).length := by
  induction events with
  | nil => intro pending; rfl
  | cons event events ih =>
    intro pending
    cases event with
    | o b => exact ih (pending ++ [b])
    | s w => exact congrArg (· + 1) (ih [])

theorem present_inputs {tr : Transaction} {s t : State} (h : present tr s = .next t) : t.inputs = s.inputs := by
  obtain ⟨i, -, hx⟩ | ⟨e, -, rfl⟩ := present_cases h
  · exact (instructionsOnlyAppendOutputs i s t hx).1
  · rfl

/-- A step takes one word off, keeps the invariant, and adds one status (R60, R140). -/
theorem step_takes_word {s : State} {W : CmdWord} {rest : List HostInput} (hs : s.ContextInv)
    (hin : s.inputs = .present (.c W) :: rest) :
    NextWith (step s) fun t =>
      t.ContextInv ∧ t.inputs = rest ∧ (statusesOf t.sent).length = (statusesOf s.sent).length + 1 := by
  obtain ⟨t, ht, bs, w, hsent, -⟩ := oneResponsePerTransaction.1 W { s with inputs := rest } hs
  refine ⟨t, (step_of_present hin).trans ht, present_contextInv (s := { s with inputs := rest }) hs ht,
    present_inputs ht, ?_⟩
  simp [hsent]

/-- As many steps as words are presented take them all and add a status for each. -/
theorem run_takes_words (words : List CmdWord) : ∀ s : State, s.ContextInv →
    s.inputs = words.map (fun W => .present (.c W)) →
    NextWith (Host.Core.run Sys2Proof.core words.length s) fun t =>
      t.inputs = [] ∧ (statusesOf t.sent).length = (statusesOf s.sent).length + words.length := by
  induction words with
  | nil => exact fun s _ hin => ⟨s, rfl, hin, rfl⟩
  | cons W words ih =>
    intro s hs hin
    obtain ⟨u, hu, hinv, hrest, hcount⟩ := step_takes_word hs hin
    obtain ⟨t, ht, hdone, htotal⟩ := ih u hinv hrest
    refine ⟨t, ?_, hdone, ?_⟩
    · simpa only [List.length_cons, Host.Core.run, core_step, hu] using ht
    · rw [htotal, hcount, List.length_cons, Nat.add_assoc, Nat.add_comm 1]

/-- Settles O39: the responses are counted by the statuses, of which every word adds one. -/
theorem runGivesOneResponsePerWord : Obligations.RunGivesOneResponsePerWord := by
  intro words s hs hsent hin
  obtain ⟨t, ht, hdone, hcount⟩ := run_takes_words words s hs hin
  refine ⟨t, ht, hdone, ?_⟩
  rw [observed, length_responsesFrom, hcount, hsent]
  exact Nat.zero_add _

end Sys2Proof.Machine

/-!
PROOFS about the wrappers (spec/42_wrappers.md). INITV and FINALV (R120, R121), each the sponge's command on a row of
CFG; the four digest functions (R122), and that a digest has no memory of what came before it (R123).
-/

namespace Sys2Proof.Machine

/-! ## INITV and FINALV (R120, R121) -/

theorem exec_initv_eq_exec_init (v : Variant) (s : State) :
    exec (.initv v) s = exec (.init (cfgRate v) cfgDelim) s := rfl

theorem exec_finalv_eq_exec_finalize (v : Variant) (s : State) :
    exec (.finalv v) s = exec (.finalize (cfgOutlen v)) s := rfl

/-- Settles O19: the rates of CFG are legal, so every row opens its context. -/
theorem initvOpensItsRow : Obligations.InitvOpensItsRow := by
  intro v s
  have hopen : exec (.initv v) s = .next (deliver statusOk (openContext (cfgRate v) cfgDelim s)) :=
    initContext_of_legal cfgDelim s (cfgRate_legal v)
  rw [hopen, ← zeroLanes_eq_replicate]
  cases v <;> rfl

/-- Settles O26: FINALIZE of the row's length, in ABSORBING and outside it. -/
theorem finalvSqueezesItsRowsLength : Obligations.FinalvSqueezesItsRowsLength := by
  intro v s
  have hfin := finalizePadsPermutesAndSqueezes (cfgOutlen v) s
  rw [← exec_finalv_eq_exec_finalize] at hfin
  cases v <;> exact hfin

/-! ## The digest functions (R122, R123) -/

/-- A digest function is the sponge's digest at its row of CFG (R122). -/
theorem execAll_digestCommands (v : Variant) (m : List Byte) (s : State) :
    execAll (digestCommands v m) s =
      execAll (.init (cfgRate v) cfgDelim :: (updateCommands m ++ [.finalize (cfgOutlen v)])) s := by
  simp only [digestCommands, execAll, execAll_append, exec_initv_eq_exec_init, exec_finalv_eq_exec_finalize]

/-- Settles O31: the closed form of R105 at the row's rate, delimiter and length. -/
theorem digestFunctionsFollowTheClosedForm : Obligations.DigestFunctionsFollowTheClosedForm := by
  intro v m s
  obtain ⟨hr1, hr2⟩ := cfgRate_legal v
  have hdigest := digestClosedForm (cfgRate v) cfgDelim m (cfgOutlen v) s hr1 hr2
  rw [← execAll_digestCommands] at hdigest
  cases v <;> exact hdigest

/-- Squeezing from padded lanes leaves as many permutations behind Pad's as there are further blocks (R104, R106). -/
theorem keccakTimes_finalizePerms (r n : Nat) (A : Lanes) :
    keccakTimes (finalizePerms r n) A = keccakTimes ((n + r - 1) / r - 1) (keccakF A) := by
  rw [keccakTimes_keccakF, finalizePerms, Nat.add_comm]

/-- What a digest sends and leaves in the registers, written out of its rate, delimiter, message and length alone. -/
theorem execAll_digest_result {r : Nat} (d : Byte) (m : List Byte) (n : Nat) (s : State) (h : 1 ≤ r ∧ r ≤ 199) :
    NextWith (execAll (.init r d :: (updateCommands m ++ [.finalize n])) s) fun t =>
      t.sent.drop s.sent.length =
        List.replicate (m.length + 1) (.s 0x00#8) ++ ((List.range n).map (digestByte r d m)).map .o ++ [.s 0x00#8] ∧
      t.lanes = keccakTimes ((n + r - 1) / r - 1) (chained r d m (m.length / r + 1)) ∧
      t.rate = BitVec.ofNat 8 r ∧ t.offset = BitVec.ofNat 8 (m.length % r) ∧ t.delimiter = d ∧
      t.phase = .finalized := by
  obtain ⟨o, A, ho, hlanes, hexec⟩ := execAll_digest d m n s h
  have hrate : (afterAbsorb m o (deliver statusOk (openContext r d s))).rate.toNat = r := openContext_rate_toNat d s h.2
  refine ⟨_, hexec, ?_, ?_, rfl, ?_, rfl, rfl⟩
  · rw [afterFinalize, hrate, squeezedByte_of_chained hlanes]
    simp [afterAbsorb_eq, List.replicate_succ, statusOk]
  · rw [afterFinalize, hrate, keccakTimes_finalizePerms, hlanes]
  · rw [← ho, BitVec.ofNat_toNat, BitVec.setWidth_eq]
    rfl

/-- Settles O32: what both runs send and leave is written out of the row and the message. -/
theorem digestForgetsThePast : Obligations.DigestForgetsThePast := by
  intro v m s s'
  rw [execAll_digestCommands, execAll_digestCommands]
  obtain ⟨t, ht, hsent, hlanes, hrate, hoffset, hdelim, hphase⟩ :=
    execAll_digest_result cfgDelim m (cfgOutlen v) s (cfgRate_legal v)
  obtain ⟨t', ht', hsent', hlanes', hrate', hoffset', hdelim', hphase'⟩ :=
    execAll_digest_result cfgDelim m (cfgOutlen v) s' (cfgRate_legal v)
  exact ⟨t, ht, t', ht', hsent.trans hsent'.symm, hlanes.trans hlanes'.symm, hrate.trans hrate'.symm,
    hoffset.trans hoffset'.symm, hdelim.trans hdelim'.symm, hphase.trans hphase'.symm⟩

end Sys2Proof.Machine
